-- ==== Sys2Proof/Word.lean ====
section
/-! DEFINITION. The word types of the Virtual-6502 CORE (00_scope.md R6, R7): bytes and addresses. -/

namespace Sys2Proof

/-- A byte, an integer in [0, 255]: the registers A, X, Y, IR and MDR, a memory cell, an operand byte. -/
abbrev Byte := BitVec 8

/-- An address, an integer in [0, 65535]: PC, MAR and an operand address. -/
abbrev Addr := BitVec 16

end Sys2Proof
end

