-- ==== Sys2Proof/Config.lean ====
section
/-! DEFINITION. The parameters the spec leaves OPEN and that some rule of the model depends on (00_scope.md R6). None has a
body: a claim holds for every value of each (logs 7 to 11). The shared operations take the parameter as an argument, so a
test can fix it; the meanings pass these constants. SYS2_ADDRESS, a function from State, stands in Machine/Operands.lean. -/

namespace Sys2Proof

/-- What INC does to V when the byte does not wrap (42_arithmetic.md R173, D11). -/
inductive IncVNoWrap where
  | keep
  | clear
  deriving DecidableEq, Repr, Inhabited

/-- What an undefined opcode does (44_system.md R220, D20). -/
inductive IllegalOpcodePolicy where
  | nop
  | fault
  deriving DecidableEq, Repr, Inhabited

/-- INC_V_NOWRAP. -/
opaque Config.incVNoWrap : IncVNoWrap

/-- ILLEGAL_OPCODE_POLICY. -/
opaque Config.illegalOpcodePolicy : IllegalOpcodePolicy

/-- DEVICE_CAPACITY (60_exceptions.md R249, D22). -/
opaque Config.deviceCapacity : Nat

/-- KEY_PRIORITY (60_exceptions.md R254, D23). -/
opaque Config.keyPriority : Int

/-- Token, the OPEN type of interrupt payloads (R6; D27), as an enumeration of it: the payloads are the values of this map, so
the type may be any non-empty finite or countable one (log 11). -/
opaque Config.tokenPayload : Nat → Nat

end Sys2Proof
end

