-- ==== Sys2Proof/Syntax.lean ====
section
/-! DEFINITION. The instructions: one constructor for each row of the opcode table (30_encoding.md R85), with the operand
its format carries (R81, R83). The undefined opcode values (R86) are no instructions of the table. -/

namespace Sys2Proof

/-- The instruction set (R85). `b1` is the one operand byte of format F1; `ea` is the operand address `{hi, lo}` of format
F2. 0xFF is two rows of the table, one for each of its lengths (R88). -/
inductive Instr where
  | ldaImm (b1 : Byte)
  | ldaAbs (ea : Addr)
  | txa
  | tya
  | ldxImm (b1 : Byte)
  | ldxAbs (ea : Addr)
  | tax
  | ldyImm (b1 : Byte)
  | ldyAbs (ea : Addr)
  | tay
  | staAbs (ea : Addr)
  | adcAbs (ea : Addr)
  | incAbs (ea : Addr)
  | cpxAbs (ea : Addr)
  | bneRel (b1 : Byte)
  | sysImplied
  | sysAbs (ea : Addr)
  | brk
  | nop
  deriving DecidableEq, Repr

/-- What decode finds about an opcode (40_pipeline.md R103): `implied` is 0xFF with X in {1, 2}. -/
inductive ArityClass where
  | zero
  | implied
  | one
  | two
  deriving DecidableEq, Repr

end Sys2Proof
end

