-- ==== Sys2Proof/WellFormed.lean ====
section
/-! DEFINITION. Which instructions are well formed where. Operand widths are carried by the types, so the one check left is
the spec's own: which of the two forms of 0xFF exists depends on the value of X at the decode pulse (30_encoding.md R88). -/

namespace Sys2Proof

/-- The X values that make 0xFF a one-byte instruction (30_encoding.md R82, R88). -/
def sysIsImplied (x : Byte) : Bool := x == 1#8 || x == 2#8

/-- `i` is an instruction that decode can find when register X holds `x` (R88). -/
def Instr.wellFormed (x : Byte) : Instr → Bool
  | .ldaImm _ => true
  | .ldaAbs _ => true
  | .txa => true
  | .tya => true
  | .ldxImm _ => true
  | .ldxAbs _ => true
  | .tax => true
  | .ldyImm _ => true
  | .ldyAbs _ => true
  | .tay => true
  | .staAbs _ => true
  | .adcAbs _ => true
  | .incAbs _ => true
  | .cpxAbs _ => true
  | .bneRel _ => true
  | .sysImplied => sysIsImplied x
  | .sysAbs _ => !sysIsImplied x
  | .brk => true
  | .nop => true

end Sys2Proof
end

