-- ==== Sys2Proof/Decode.lean ====
section
/-! DEFINITION. Decoding and encoding (30_encoding.md R80 to R88). The opcode bytes and arity classes other than 0xA9, 0x00
and 0xFF are marked by the spec itself as general knowledge (D8); PRESUMED, log 6. -/

namespace Sys2Proof

/-- `{hi, lo}`: the address whose high byte is `hi` and whose low byte is `lo` (00_scope.md R7, 20_memory.md R61). -/
def addrOf (hi lo : Byte) : Addr := hi ++ lo

/-- `v[7:0]` of an address. -/
def loByte (a : Addr) : Byte := a.extractLsb' 0 8

/-- `v[15:8]` of an address. -/
def hiByte (a : Addr) : Byte := a.extractLsb' 8 8

/-- The listed zero-operand opcodes (R84). Every byte value in none of the three lists is zero-operand too (R86). -/
def zeroOperandSet : List Byte := [0x8A#8, 0x98#8, 0xAA#8, 0xA8#8, 0xEA#8, 0x00#8]

/-- The one-operand opcodes (R84). -/
def oneOperandSet : List Byte := [0xA9#8, 0xA2#8, 0xA0#8, 0xD0#8]

/-- The two-operand opcodes (R84); 0xFF by decision D9. -/
def twoOperandSet : List Byte := [0xAD#8, 0x8D#8, 0x6D#8, 0xAE#8, 0xAC#8, 0xEC#8, 0xEE#8, 0xFF#8]

/-- The 18 defined opcodes (R85): the members of the three classes. -/
def definedOpcodes : List Byte := zeroOperandSet ++ oneOperandSet ++ twoOperandSet

/-- The classification of `IR` under the current value of X (40_pipeline.md R103). -/
def classify (ir x : Byte) : ArityClass :=
  if ir = 0xFF#8 ∧ sysIsImplied x = true then .implied
  else if ir ∈ oneOperandSet then .one
  else if ir ∈ twoOperandSet then .two
  else .zero

/-- The number of operand bytes of a class (R81). -/
def operandBytes : ArityClass → Nat
  | .zero => 0
  | .implied => 0
  | .one => 1
  | .two => 2

/-- The instruction of the opcode map (R85) for an opcode, the value of X, the operand byte of format F1 and the operand
address of format F2; none for an undefined opcode (R86). -/
def instrOf (op x b1 : Byte) (ea : Addr) : Option Instr :=
  if op = 0xA9#8 then some (.ldaImm b1)
  else if op = 0xAD#8 then some (.ldaAbs ea)
  else if op = 0x8A#8 then some .txa
  else if op = 0x98#8 then some .tya
  else if op = 0xA2#8 then some (.ldxImm b1)
  else if op = 0xAE#8 then some (.ldxAbs ea)
  else if op = 0xAA#8 then some .tax
  else if op = 0xA0#8 then some (.ldyImm b1)
  else if op = 0xAC#8 then some (.ldyAbs ea)
  else if op = 0xA8#8 then some .tay
  else if op = 0x8D#8 then some (.staAbs ea)
  else if op = 0x6D#8 then some (.adcAbs ea)
  else if op = 0xEE#8 then some (.incAbs ea)
  else if op = 0xEC#8 then some (.cpxAbs ea)
  else if op = 0xD0#8 then some (.bneRel b1)
  else if op = 0xFF#8 then some (if sysIsImplied x then .sysImplied else .sysAbs ea)
  else if op = 0x00#8 then some .brk
  else if op = 0xEA#8 then some .nop
  else none

/-- Why the decoder answers no instruction. -/
inductive DecodeError where
  /-- The opcode is one of the 238 undefined values (R86). The machine still executes it (44_system.md R220). -/
  | undefinedOpcode (op : Byte)
  /-- The byte list ends before the instruction does. Memory never does: it is cyclic and every address is backed. -/
  | truncated
  deriving DecidableEq, Repr

/-- The instruction of `op` with these operands, or the rejection by name of an undefined opcode (R86). -/
def instrOrUndefined (op x b1 : Byte) (ea : Addr) (rest : List Byte) : Except DecodeError (Instr × List Byte) :=
  match instrOf op x b1 ea with
  | some i => .ok (i, rest)
  | none => .error (.undefinedOpcode op)

/-- The instruction at the head of a byte list, read with X holding `x`, and the bytes after it (R80 to R83, R88). -/
def decode (x : Byte) : List Byte → Except DecodeError (Instr × List Byte)
  | [] => .error .truncated
  | op :: rest =>
    match classify op x, rest with
    | .zero, _ => instrOrUndefined op x 0#8 0#16 rest
    | .implied, _ => instrOrUndefined op x 0#8 0#16 rest
    | .one, b1 :: rest' => instrOrUndefined op x b1 0#16 rest'
    | .one, [] => .error .truncated
    | .two, lo :: hi :: rest' => instrOrUndefined op x 0#8 (addrOf hi lo) rest'
    | .two, _ => .error .truncated

/-- The opcode byte of an instruction (R85). -/
def opcodeOf : Instr → Byte
  | .ldaImm _ => 0xA9#8
  | .ldaAbs _ => 0xAD#8
  | .txa => 0x8A#8
  | .tya => 0x98#8
  | .ldxImm _ => 0xA2#8
  | .ldxAbs _ => 0xAE#8
  | .tax => 0xAA#8
  | .ldyImm _ => 0xA0#8
  | .ldyAbs _ => 0xAC#8
  | .tay => 0xA8#8
  | .staAbs _ => 0x8D#8
  | .adcAbs _ => 0x6D#8
  | .incAbs _ => 0xEE#8
  | .cpxAbs _ => 0xEC#8
  | .bneRel _ => 0xD0#8
  | .sysImplied => 0xFF#8
  | .sysAbs _ => 0xFF#8
  | .brk => 0x00#8
  | .nop => 0xEA#8

/-- The operand bytes of an instruction in increasing address order: an address is stored low byte first (R81, 20_memory.md
R61). -/
def operandsOf : Instr → List Byte
  | .ldaImm b1 => [b1]
  | .ldaAbs ea => [loByte ea, hiByte ea]
  | .txa => []
  | .tya => []
  | .ldxImm b1 => [b1]
  | .ldxAbs ea => [loByte ea, hiByte ea]
  | .tax => []
  | .ldyImm b1 => [b1]
  | .ldyAbs ea => [loByte ea, hiByte ea]
  | .tay => []
  | .staAbs ea => [loByte ea, hiByte ea]
  | .adcAbs ea => [loByte ea, hiByte ea]
  | .incAbs ea => [loByte ea, hiByte ea]
  | .cpxAbs ea => [loByte ea, hiByte ea]
  | .bneRel b1 => [b1]
  | .sysImplied => []
  | .sysAbs ea => [loByte ea, hiByte ea]
  | .brk => []
  | .nop => []

/-- The bytes of an instruction (R80). -/
def encode (i : Instr) : List Byte := opcodeOf i :: operandsOf i

/-- Byte `k` of an opcode-table word of `nbits` bits: the word's bits 8k+7..8k, and 0 above `nbits`. -/
def tableByte (nbits w k : Nat) : Byte := BitVec.ofNat 8 ((w % 2 ^ nbits) / 2 ^ (8 * k))

/-- The X value under which a table word is read. It decides only the form of 0xFF (R88): a word of one byte is the
one-byte form, which exists for X in {1, 2}; a longer word is the three-byte form. DESIGN CHOICE, log 5. -/
def tableX (nbits : Nat) : Byte := if nbits ≤ 8 then 1#8 else 0#8

/-- The instruction this decoder reads from a word numbered as the opcode table numbers it: byte k of the instruction is
bits 8k+7..8k of `w`, and every bit above `nbits` is 0. -/
def decodeTableWord (nbits w : Nat) : Option Instr :=
  match decode (tableX nbits) [tableByte nbits w 0, tableByte nbits w 1, tableByte nbits w 2] with
  | .ok (i, _) => some i
  | .error _ => none

end Sys2Proof
end

