-- ==== Sys2Proof/Machine/State.lean ====
section
/-! DEFINITION. The state of the CORE as plain data (10_state.md R20 to R42): exactly the components R20 lists. -/

namespace Sys2Proof.Machine

/-- Why the machine stops without a next state. The faulted outcome of 60_exceptions.md R243 is NOT here: it is a next
state whose `status` is `faulted` (log 13). -/
inductive Fault where
  /-- Raised by SYS with X=2 or X=3 (PrintString, 44_system.md R215) when no byte of memory is zero and none it prints
  exceeds 0x7F: the loop never ends, the pulse never completes and the spec gives no successor state (I6). Safe. -/
  | stringNeverEnds
  deriving DecidableEq, Repr

/-- Why the model gives no meaning to a request. -/
inductive Refusal where
  /-- Raised by an arm of exec whose instruction has no meaning yet. Safe. No arm raises it. -/
  | notModelled (mnemonic : String)
  /-- Raised by the interrupt check when `pending` is 1 and the queue is empty, which no run reaches (60_exceptions.md R247,
  R252; I9). Safe. -/
  | emptyQueue
  /-- Raised at boot for a program image of more than 65536 bytes (70_reset_and_hazards.md R282; I12). Safe. -/
  | imageTooLong (n : Nat)
  /-- Raised at boot for a program image with an element outside [0, 255] (R282; I12). Safe. -/
  | imageByteOutOfRange (n : Nat)
  /-- Raised by a `startClock` after the one at boot (60_exceptions.md R264, D40; I11). Safe. -/
  | clockAlreadyStarted
  deriving DecidableEq, Repr

/-- A memory as its cells in one canonical form (`Memory.wf`). An address with no cell reads as `Memory.default`. -/
abbrev Memory := List Host.Cell

/-- What an address that no cell lists reads as: 0x00 (R42, R282; the spec's decision D3). DESIGN CHOICE, unsafe, log 3. -/
def Memory.default : Byte := 0x00#8

/-- Addresses strictly rising from `lo` on, all below 65536, and no cell equal to the default. -/
def Memory.wfFrom (lo : Nat) : Memory → Bool
  | [] => true
  | (a, b) :: rest => decide (lo ≤ a) && decide (a < 65536) && decide (b ≠ Memory.default) && Memory.wfFrom (a + 1) rest

/-- The canonical form of a memory: equal memories are equal lists. -/
def Memory.wf (m : Memory) : Bool := Memory.wfFrom 0 m

/-- The pipeline step register's values (R30): the work the next pulse does. -/
inductive PipeStep where
  | fetch
  | decode
  | execute
  | writeback
  | interruptCheck
  deriving DecidableEq, Repr

/-- The MMU's little-endian assembly state (R34). -/
inductive MmuState where
  | idle
  | lowPending
  | highPending
  deriving DecidableEq, Repr

/-- How the run stands (R39). Every status other than `running` is permanent. -/
inductive RunStatus where
  | running
  | halted
  | stopped
  | faulted
  deriving DecidableEq, Repr

/-- An interrupt payload (00_scope.md R12): a value of the OPEN type Token (R6, D27), which `Config.tokenPayload` enumerates. The
core never looks inside. DESIGN CHOICE (that the payloads can be numbered), safe, log 11. -/
structure Token where
  payload : Nat
  isPayload : ∃ k, Config.tokenPayload k = payload
  deriving DecidableEq, Repr

/-- A registered device: id, IRQ and priority (R37, 60_exceptions.md R249). The spec gives no range for the first two. -/
structure Device where
  id : Nat
  irq : Nat
  priority : Int
  deriving DecidableEq, Repr

/-- The conditions the CORE can raise (60_exceptions.md R240). -/
inductive Condition where
  | halt
  | codecInvalidByte (b : Byte)
  | illegalOpcode (op : Byte)
  | deviceCapacity (d : Device)
  | stopped
  deriving DecidableEq, Repr

/-- The events of the output stream (44_system.md R211). -/
inductive Event where
  | outHex (y : Byte)
  | outChar (b : Byte)
  | irq (t : Token) (p : Int)
  deriving DecidableEq, Repr

/-- The state of the CORE (R20). -/
@[ext]
structure State where
  /-- A, the accumulator (R21). -/
  a : Byte
  /-- X (R22). -/
  x : Byte
  /-- Y (R23). -/
  y : Byte
  /-- PC (R25). -/
  pc : Addr
  /-- IR, the current opcode (R26). -/
  ir : Byte
  /-- Z, the zero flag (R27). -/
  z : Bool
  /-- V, the overflow flag (R28). -/
  v : Bool
  /-- The 65536 bytes of memory (R36). -/
  mem : Memory
  /-- MAR (R35). -/
  mar : Addr
  /-- MDR (R35). -/
  mdr : Byte
  /-- The MMU sequencer's state (R34). -/
  mmuState : MmuState
  /-- The MMU sequencer's stored low byte (R34). -/
  mmuLow : Byte
  /-- The pipeline step register (R30). -/
  step : PipeStep
  /-- 1 between the two decode pulses of a two-operand opcode (R31). -/
  firstPass : Bool
  /-- 1 between the two execute pulses of INC (R32). -/
  phase2 : Bool
  /-- 1 when the writeback pulse must commit MDR (R33). -/
  writePending : Bool
  /-- The device registry (R37). -/
  devices : List Device
  /-- The pending flag of InterruptControl (R37). -/
  pending : Bool
  /-- The interrupt queue, head first (R37, 60_exceptions.md R245). -/
  queue : List (Token × Int)
  /-- Pulses received while running (R38). -/
  cycles : Nat
  /-- How the run stands (R39). -/
  status : RunStatus
  /-- The condition of a faulted run (R39). -/
  faultReason : Option Condition
  /-- The output stream, oldest event first (R20, 44_system.md R211). -/
  out : List Event
  deriving DecidableEq, Repr

/-- The machine right after boot with an empty program image and before the first pulse (R42). The spec's source gives none of
the values but the entry point; they are the spec's decisions D2, D3, D4 and D30. DESIGN CHOICE, unsafe, log 2. -/
def State.reset : State where
  a := 0x00#8
  x := 0x00#8
  y := 0x00#8
  pc := 0x0000#16
  ir := 0x00#8
  z := false
  v := false
  mem := []
  mar := 0x0000#16
  mdr := 0x00#8
  mmuState := .idle
  mmuLow := 0x00#8
  step := .fetch
  firstPass := false
  phase2 := false
  writePending := false
  devices := []
  pending := false
  queue := []
  cycles := 0
  status := .running
  faultReason := none
  out := []

/-- The answer of a meaning, a pulse or a step. -/
abbrev Result := Host.Outcome State Fault Refusal

end Sys2Proof.Machine
end

