-- ==== Sys2Proof/Machine/Ops.lean ====
section
/-! DEFINITION. The named operations over memory, registers, the output stream and the run status that the meanings and the
pulses share (20_memory.md R50 to R70, 00_scope.md R8 to R10, 60_exceptions.md R243). -/

namespace Sys2Proof.Machine

/-! ### Memory as data -/

/-- The byte at address `n` of the cells. -/
def Memory.lookup : Memory → Nat → Byte
  | [], _ => Memory.default
  | (k, b) :: rest, n => if k = n then b else Memory.lookup rest n

/-- The cells with the byte at address `n` set to `v`, in canonical form if they were. -/
def Memory.insert : Memory → Nat → Byte → Memory
  | [], n, v => if v = Memory.default then [] else [(n, v)]
  | (k, b) :: rest, n, v =>
    if n < k then (if v = Memory.default then (k, b) :: rest else (n, v) :: (k, b) :: rest)
    else if n = k then (if v = Memory.default then rest else (n, v) :: rest)
    else (k, b) :: Memory.insert rest n v

/-- `mem[a]`: every address has a byte (20_memory.md R50). -/
def Memory.read (m : Memory) (a : Addr) : Byte := m.lookup a.toNat

/-- `mem[a] <- v`. -/
def Memory.write (m : Memory) (a : Addr) (v : Byte) : Memory := m.insert a.toNat v

/-- The bytes of a program image put into memory from address `n` on: byte i of the image goes to `mem[i]` (20_memory.md R60). -/
def Memory.loadFrom (m : Memory) (n : Nat) : List Byte → Memory
  | [] => m
  | b :: rest => Memory.loadFrom (m.insert n b) (n + 1) rest

/-! ### The result of an operation -/

/-- Go on with `f` from a next state; a fault or a refusal ends the pulse. -/
def andThen (o : Result) (f : State → Result) : Result :=
  match o with
  | .next s => f s
  | .fault r => .fault r
  | .refused r => .refused r

/-! ### Widths (00_scope.md R7) -/

/-- `u8(n)`: n mod 256. -/
def u8 (n : Int) : Byte := BitVec.ofInt 8 n

/-- `u16(n)`: n mod 65536. -/
def u16 (n : Int) : Addr := BitVec.ofInt 16 n

/-! ### The memory primitives (20_memory.md R51 to R54) -/

/-- `Mem.setMAR(addr)` for an address that is already 16 bits (R51). -/
def setMAR (a : Addr) (s : State) : State := { s with mar := a }

/-- `Mem.setMAR(addr)` for any integer: `MAR <- addr & 0xFFFF` (R51). -/
def setMARInt (n : Int) (s : State) : State := setMAR (u16 n) s

/-- `Mem.setMDR(d)` (R54, with 90_conflicts.md C6: MDR is 8 bits). -/
def setMDR (d : Byte) (s : State) : State := { s with mdr := d }

/-- `Mem.getMAR()` (R54). -/
def getMAR (s : State) : Addr := s.mar

/-- `Mem.getMDR()` (R54). -/
def getMDR (s : State) : Byte := s.mdr

/-- `Mem.read()`: `MDR <- mem[MAR]` (R52). -/
def memRead (s : State) : State := { s with mdr := s.mem.read s.mar }

/-- `Mem.write()`: `mem[MAR] <- MDR` (R53). -/
def memWrite (s : State) : State := { s with mem := s.mem.write s.mar s.mdr }

/-- `Memory.pulse()`: no effect on any state (R70; the spec's decision D28, log 19). -/
def memoryPulse (s : State) : State := s

/-! ### The MMU sequencer (20_memory.md R55 to R58) -/

/-- `MMU.set_LittleFlag()`: arms the sequencer, whatever its state was (R56; D36, log 25). -/
def setLittleFlag (s : State) : State := { s with mmuState := .lowPending }

/-- `MMU.changeMAR(addr)` (R57). -/
def changeMAR (a : Addr) (s : State) : State := setMAR a s

/-- `MMU.changeMDR(data)` (R57). -/
def changeMDR (d : Byte) (s : State) : State := setMDR d s

/-- `MMU.get_MAR()` (R57). -/
def mmuGetMAR (s : State) : Addr := getMAR s

/-- `MMU.get_MDR()` (R57). -/
def mmuGetMDR (s : State) : Byte := getMDR s

/-- `MMU.write()` (R57). -/
def mmuWrite (s : State) : State := memWrite s

/-- What `MMU.read()` does after its `Mem.read()`, by the sequencer's state (R55). -/
def mmuAdvance (s : State) : State :=
  match s.mmuState with
  | .lowPending => { s with mmuLow := s.mdr, mmuState := .highPending }
  | .highPending => { memRead (setMAR (addrOf s.mdr s.mmuLow) s) with mmuState := .idle }
  | .idle => s

/-- `MMU.read()` (R55). -/
def mmuRead (s : State) : State := mmuAdvance (memRead s)

/-! ### Registers of the controller -/

/-- `PC <- u16(PC + 1)` (10_state.md R25). -/
def incPC (s : State) : State := { s with pc := s.pc + 1#16 }

/-- `step <- S` (00_scope.md R10). -/
def setStep (p : PipeStep) (s : State) : State := { s with step := p }

/-- `cycles <- cycles + 1` (60_exceptions.md R265). -/
def countPulse (s : State) : State := { s with cycles := s.cycles + 1 }

/-! ### Output, halt, fault (00_scope.md R10) -/

/-- Append an event to the output stream (44_system.md R211). -/
def emit (e : Event) (s : State) : State := { s with out := s.out ++ [e] }

/-- `halt`: the halted outcome (40_pipeline.md R121, 44_system.md R217). It also stops the clock (60_exceptions.md R264): no
pulse does anything while `status` is not `running`. -/
def halt (s : State) : State := { s with status := .halted }

/-- `raise Fault(reason)`: TAKING A CONDITION, the one shared operation (60_exceptions.md R243). No pc and no status is saved
and no handler is entered (R257); nothing returns from it (R258). The faulted outcome is a next state (log 13). -/
def raiseFault (c : Condition) (s : State) : State := { s with status := .faulted, faultReason := some c }

/-- `Clock.stopClock()` as the host calls it: an external stop request (R264, 40_pipeline.md R122). Idempotent. -/
def stopRequest (s : State) : State :=
  if s.status = .running then { s with status := .stopped } else s

/-- The code of a condition (60_exceptions.md R240; labels of the spec, D38). -/
def Condition.code : Condition → Nat
  | .halt => 0
  | .codecInvalidByte _ => 1
  | .illegalOpcode _ => 2
  | .deviceCapacity _ => 3
  | .stopped => 4

end Sys2Proof.Machine
end

