-- ==== Sys2Proof/Machine/Operands.lean ====
section
/-! DEFINITION. The operand forms (30_encoding.md R83, 41_load_store.md R152) and what the execute step sees of them
(40_pipeline.md R114). -/

namespace Sys2Proof.Machine

/-- `sext_8(b)`: the signed reading of a byte (00_scope.md R7). -/
def sext8 (b : Byte) : Int := if b.toNat ≥ 0x80 then (b.toNat : Int) - 256 else b.toNat

/-- Relative operand: `u16(PC + sext_8(b1))`, PC being the address of the next instruction (43_compare_branch.md R191). -/
def branchTarget (pc : Addr) (b1 : Byte) : Addr := u16 (pc.toNat + sext8 b1)

/-- The address of byte `k` of the instruction that stands at PC (30_encoding.md R81). -/
def instrByteAddr (s : State) (k : Nat) : Addr := s.pc + BitVec.ofNat 16 k

/-- The bytes at PC, as many as the longest instruction has (30_encoding.md R81). -/
def fetchBytes (s : State) : List Byte :=
  [s.mem.read (instrByteAddr s 0), s.mem.read (instrByteAddr s 1), s.mem.read (instrByteAddr s 2)]

/-- The instruction an execute pulse runs: its opcode is in IR, the operand byte of format F1 in MDR and the operand address
of format F2 in MAR (40_pipeline.md R109, R114). None for an undefined opcode (R86). -/
def instrAtExecute (s : State) : Option Instr := instrOf s.ir s.x s.mdr s.mar

/-- The X under which the next decode reads the table word: only for 0xFF, and only if X does not already select the word's
form (30_encoding.md R88; log 5). -/
def fetchWordX (nbits w : Nat) (x : Byte) : Byte :=
  if tableByte nbits w 0 = 0xFF#8 ∧ sysIsImplied x ≠ sysIsImplied (tableX nbits) then tableX nbits else x

/-- What SYS2_ADDRESS may depend on. It is a total function from state (00_scope.md R6), and it is applied to the state with every
component blanked that the spec says this instruction, or every instruction, does not read: A (10_state.md R21), Z (R27), V (R28),
`devices`, `pending`, `queue` (R37), `cycles` (R38), `out` (44_system.md R211; 40_pipeline.md R117) and the stale `mmuLow`
(20_memory.md R55). DEDUCED. Every other component stays visible to it: X, Y, PC, IR, `mem`, MAR, MDR, `mmuState`, `step`,
`firstPass`, `phase2`, `writePending`, `status`, `faultReason`. DESIGN CHOICE. Log 8. -/
def sys2View (s : State) : State :=
  { s with
    a := 0#8, z := false, v := false, mmuLow := 0#8
    devices := [], pending := false, queue := [], cycles := 0, out := [] }

/-! The three readings the words of 44_system.md R213 admit for SYS2_ADDRESS. The parameter itself is
`Config.sys2Address`. -/

/-- Reading (a): `{PC[15:8], Y}`. -/
def sys2PcPage (s : State) : Addr := addrOf (hiByte s.pc) s.y

/-- Reading (b): `{MAR[15:8], Y}`. -/
def sys2MarPage (s : State) : Addr := addrOf (hiByte s.mar) s.y

/-- Reading (c): `{0x00, Y}`. -/
def sys2ZeroPage (s : State) : Addr := addrOf 0x00#8 s.y

end Sys2Proof.Machine

namespace Sys2Proof

/-- SYS2_ADDRESS, a total function from state to a 16-bit address (00_scope.md R6; 44_system.md R213, D15): OPEN, without a body.
The machine applies it to `Machine.sys2View` of its state (log 8). -/
opaque Config.sys2Address : Machine.State → Addr

end Sys2Proof
end

