-- ==== Sys2Proof/Machine/Flags.lean ====
section
/-! DEFINITION. The flag logic: every computation of V and Z the spec gives (42_arithmetic.md R170, R173;
43_compare_branch.md R190). There is no other flag (10_state.md R29). -/

namespace Sys2Proof.Machine

/-- ADC's signed sum before wrapping (R170). -/
def adcSum (a m : Byte) : Int := sext8 a + sext8 m

/-- ADC's sum after the one wrap, and V (R170). -/
def adcWrap (s : Int) : Int × Bool :=
  if s < -128 then (s + 256, true) else if s > 127 then (s - 256, true) else (s, false)

/-- The byte ADC leaves in A: the wrapped sum masked to 8 bits (R170). -/
def adcValue (a m : Byte) : Byte := u8 (adcWrap (adcSum a m)).1

/-- The V that ADC writes (R170). -/
def adcOverflow (a m : Byte) : Bool := (adcWrap (adcSum a m)).2

/-- INC wraps: the incremented integer is 0x100 (R173). -/
def incWraps (a : Byte) : Bool := a.toNat + 1 == 0x100

/-- The byte INC leaves in A (R173). -/
def incValue (a : Byte) : Byte := if incWraps a then 0x00#8 else u8 (a.toNat + 1)

/-- The V that INC's second phase leaves, given INC_V_NOWRAP and the V before (R173, D11). -/
def incOverflow (nowrap : IncVNoWrap) (a : Byte) (v : Bool) : Bool :=
  if incWraps a then true
  else match nowrap with
    | .keep => v
    | .clear => false

/-- The Z that CPX writes: 1 on equality, 0 otherwise (43_compare_branch.md R190; D10, log 17). -/
def cpxZero (x m : Byte) : Bool := x == m

end Sys2Proof.Machine
end

