-- ==== Sys2Proof/Machine/Arithmetic.lean ====
section
/-! DEFINITION. The execute work of ADC and INC (42_arithmetic.md R170, R172, R173). -/

namespace Sys2Proof.Machine

/-- ADC absolute: the signed 8-bit sum of A and MDR into A, and V; no carry is read or written (R170). -/
def execAdcAbs (s : State) : Result :=
  .next { s with a := adcValue s.a s.mdr, v := adcOverflow s.a s.mdr }

/-- INC phase 1: `A <- MDR`, `phase2 <- 1` (R172). -/
def incPhase1 (s : State) : State := { s with a := s.mdr, phase2 := true }

/-- INC phase 2: A incremented, V, MDR and `writePending` written, `phase2` reset (R173; D12, D13, log 17). -/
def incPhase2 (nowrap : IncVNoWrap) (s : State) : State :=
  { changeMDR (incValue s.a) s with
    a := incValue s.a
    v := incOverflow nowrap s.a s.v
    writePending := true
    phase2 := false }

/-- INC absolute: the phase that `phase2` picks (R172, R173). -/
def execIncAbs (s : State) : Result :=
  .next (if s.phase2 then incPhase2 Config.incVNoWrap s else incPhase1 s)

end Sys2Proof.Machine
end

