-- ==== Sys2Proof/Machine/CompareBranch.lean ====
section
/-! DEFINITION. The execute work of CPX and BNE (43_compare_branch.md R190, R191). -/

namespace Sys2Proof.Machine

/-- CPX absolute: `Z <- (X = MDR)` (R190). -/
def execCpxAbs (s : State) : Result := .next { s with z := cpxZero s.x s.mdr }

/-- BNE relative: if Z = 0, `PC <- u16(PC + sext_8(b1))`, PC being the address of the next instruction (R191). -/
def execBneRel (b1 : Byte) (s : State) : Result :=
  .next (if s.z then s else { s with pc := branchTarget s.pc b1 })

end Sys2Proof.Machine
end

