-- ==== Sys2Proof/Machine/LoadStore.lean ====
section
/-! DEFINITION. The execute work of the loads, the transfers and the store (41_load_store.md R141 to R151). No flag and no PC is
written (R140). The operand of format F1 is the instruction's own `b1`, which the execute pulse took from MDR; the datum of
format F2 stands in MDR and its address in MAR (40_pipeline.md R114). -/

namespace Sys2Proof.Machine

/-- LDA immediate: `A <- b1` (R141). -/
def execLdaImm (b1 : Byte) (s : State) : Result := .next { s with a := b1 }

/-- LDA absolute: `A <- MDR`, MDR being `mem[EA]` (R142). -/
def execLdaAbs (s : State) : Result := .next { s with a := s.mdr }

/-- TXA: `A <- X` (R143). -/
def execTxa (s : State) : Result := .next { s with a := s.x }

/-- TYA: `A <- Y` (R144). -/
def execTya (s : State) : Result := .next { s with a := s.y }

/-- LDX immediate: `X <- b1` (R145). -/
def execLdxImm (b1 : Byte) (s : State) : Result := .next { s with x := b1 }

/-- LDX absolute: `X <- MDR` (R146). -/
def execLdxAbs (s : State) : Result := .next { s with x := s.mdr }

/-- TAX: `X <- A` (R147). -/
def execTax (s : State) : Result := .next { s with x := s.a }

/-- LDY immediate: `Y <- b1` (R148). -/
def execLdyImm (b1 : Byte) (s : State) : Result := .next { s with y := b1 }

/-- LDY absolute: `Y <- MDR` (R149). -/
def execLdyAbs (s : State) : Result := .next { s with y := s.mdr }

/-- TAY: `Y <- A` (R150). -/
def execTay (s : State) : Result := .next { s with y := s.a }

/-- STA absolute: `MDR <- A`, `writePending <- 1`; the writeback pulse then stores at MAR = EA (R151; D14, log 17). -/
def execStaAbs (s : State) : Result := .next { changeMDR s.a s with writePending := true }

end Sys2Proof.Machine
end

