-- ==== Sys2Proof/Machine/System.lean ====
section
/-! DEFINITION. The execute work of SYS, BRK and NOP and of the undefined opcodes (44_system.md R210 to R220). -/

namespace Sys2Proof.Machine

/-- The string loop (R215), for at most `fuel` turns. Running out of fuel is the hang, never a result (D16, I6; log 14). -/
def printLoop : Nat → Addr → State → Result
  | 0, _, _ => .fault .stringNeverEnds
  | fuel + 1, addr, s =>
    let r := mmuRead (changeMAR addr s)
    if r.mdr = 0x00#8 then .next r
    else if r.mdr.toNat > 0x7F then .next (raiseFault (.codecInvalidByte r.mdr) r)
    else printLoop fuel (addr + 1#16) (emit (.outChar r.mdr) r)

/-- `PrintString(a)` (R215). 65536 turns read every byte once, so a loop that has not ended by then never ends. The two turns
more cover an MMU that is armed at the start, which no run reaches. -/
def printString (a : Addr) (s : State) : Result := printLoop 65538 a s

/-- The execute work of 0xFF, keyed by X (R210, R212, R213, R214, R216), given SYS2_ADDRESS. -/
def sysDispatch (sys2Address : State → Addr) (s : State) : Result :=
  if s.x = 0x01#8 then .next (emit (.outHex s.y) s)
  else if s.x = 0x02#8 then printString (sys2Address (sys2View s)) s
  else if s.x = 0x03#8 then printString s.mar s
  else .next s

/-- SYS in its one-byte form, X in {1, 2} (R210). -/
def execSysImplied (s : State) : Result := sysDispatch Config.sys2Address s

/-- SYS in its three-byte form, X not in {1, 2}: X=3 prints from MAR = EA, any other X does nothing (R210, R214, R216). -/
def execSysAbs (s : State) : Result := sysDispatch Config.sys2Address s

/-- BRK: the halted outcome (R217). -/
def execBrk (s : State) : Result := .next (halt s)

/-- NOP: no state change (R218). -/
def execNop (s : State) : Result := .next s

/-- An undefined opcode, given ILLEGAL_OPCODE_POLICY (R220, D20). -/
def execUndefined (policy : IllegalOpcodePolicy) (s : State) : State :=
  match policy with
  | .nop => s
  | .fault => raiseFault (.illegalOpcode s.ir) s

end Sys2Proof.Machine
end

