-- ==== Sys2Proof/Machine/Dispatch.lean ====
section
/-! DEFINITION. The execute work of each instruction: the dispatch of 40_pipeline.md R109, one arm for each constructor. -/

namespace Sys2Proof.Machine

/-- The execute work of `i` in a state that has fetched and decoded it (R109). -/
def exec (i : Instr) (s : State) : Host.Outcome State Fault Refusal :=
  match i with
  | .ldaImm b1 => Sys2Proof.Machine.execLdaImm b1 s
  | .ldaAbs _ => Sys2Proof.Machine.execLdaAbs s
  | .txa => Sys2Proof.Machine.execTxa s
  | .tya => Sys2Proof.Machine.execTya s
  | .ldxImm b1 => Sys2Proof.Machine.execLdxImm b1 s
  | .ldxAbs _ => Sys2Proof.Machine.execLdxAbs s
  | .tax => Sys2Proof.Machine.execTax s
  | .ldyImm b1 => Sys2Proof.Machine.execLdyImm b1 s
  | .ldyAbs _ => Sys2Proof.Machine.execLdyAbs s
  | .tay => Sys2Proof.Machine.execTay s
  | .staAbs _ => Sys2Proof.Machine.execStaAbs s
  | .adcAbs _ => Sys2Proof.Machine.execAdcAbs s
  | .incAbs _ => Sys2Proof.Machine.execIncAbs s
  | .cpxAbs _ => Sys2Proof.Machine.execCpxAbs s
  | .bneRel b1 => Sys2Proof.Machine.execBneRel b1 s
  | .sysImplied => Sys2Proof.Machine.execSysImplied s
  | .sysAbs _ => Sys2Proof.Machine.execSysAbs s
  | .brk => Sys2Proof.Machine.execBrk s
  | .nop => Sys2Proof.Machine.execNop s

end Sys2Proof.Machine
end

