-- ==== Sys2Proof/Machine/InterruptControl.lean ====
section
/-! DEFINITION. The priority queue and InterruptControl (60_exceptions.md R245 to R256). -/

namespace Sys2Proof.Machine

/-- `enqueue(v, p)`: before the first node whose priority is at most `p`, or at the tail (R246; 90_conflicts.md C1). -/
def enqueue (t : Token) (p : Int) : List (Token × Int) → List (Token × Int)
  | [] => [(t, p)]
  | e :: rest => if e.2 ≤ p then (t, p) :: e :: rest else e :: enqueue t p rest

/-- `dequeue()`: the head and the rest; none on an empty queue, which is never reached (R247). -/
def dequeue : List (Token × Int) → Option ((Token × Int) × List (Token × Int))
  | [] => none
  | e :: rest => some (e, rest)

/-- `acceptInterrupt(t, p)`: only `queue` and `pending` change (R250); the registry is not consulted (D26, log 20). -/
def acceptInterrupt (t : Token) (p : Int) (s : State) : State :=
  { s with queue := enqueue t p s.queue, pending := true }

/-- `supplyInterrupt()`: the head token, `pending` cleared once the queue empties (R251). -/
def supplyInterrupt (s : State) : Option ((Token × Int) × State) :=
  match dequeue s.queue with
  | none => none
  | some (e, rest) => some (e, { s with queue := rest, pending := if rest.isEmpty then false else s.pending })

/-- `addDevice(d)` for a registry of the given capacity: the new state, and the condition reported to the caller when the
registry is full (R249). Duplicate ids are separate entries (D35, log 20). -/
def addDevice (capacity : Nat) (d : Device) (s : State) : State × Option Condition :=
  if s.devices.length < capacity then ({ s with devices := s.devices ++ [d] }, none)
  else (s, some (.deviceCapacity d))

end Sys2Proof.Machine
end

