-- ==== Sys2Proof/Machine/Pipeline.lean ====
section
/-! DEFINITION. The pipeline controller: one pulse (40_pipeline.md R100 to R124), one tick of the clock (60_exceptions.md
R263), and the pulses of one instruction. -/

namespace Sys2Proof.Machine

/-- Fetch (R102). -/
def doFetch (s : State) : State :=
  let r := mmuRead (changeMAR s.pc s)
  setStep .decode (incPC { r with ir := r.mdr })

/-- The decode pulse of a one-operand opcode (R106). -/
def decodeOne (s : State) : State :=
  setStep .execute (incPC (mmuRead (changeMAR s.pc s)))

/-- The first decode pulse of a two-operand opcode (R107). -/
def decodeTwoFirst (s : State) : State :=
  { incPC (mmuRead (changeMAR s.pc (setLittleFlag s))) with firstPass := true }

/-- The second decode pulse of a two-operand opcode (R108). -/
def decodeTwoSecond (s : State) : State :=
  setStep .execute { incPC (mmuRead (changeMAR s.pc s)) with firstPass := false }

/-- The choice of the next step after the execute work (R110; D6, log 16). -/
def finishExecute (s : State) : State :=
  if s.status ≠ .running then s
  else if s.phase2 = true then setStep .execute s
  else if s.writePending = true then setStep .writeback s
  else setStep .interruptCheck s

/-- The execute work of IR and the choice of the next step (R109, R110). -/
def doExecute (s : State) : Result :=
  match instrAtExecute s with
  | some i => andThen (exec i s) (fun s' => .next (finishExecute s'))
  | none => .next (finishExecute (execUndefined Config.illegalOpcodePolicy s))

/-- Decode (R103 to R108): a zero-operand opcode, and 0xFF with X in {1, 2}, execute in this same pulse (D5, log 16). -/
def doDecode (s : State) : Result :=
  match classify s.ir s.x with
  | .zero => doExecute s
  | .implied => doExecute s
  | .one => .next (decodeOne s)
  | .two => .next (if s.firstPass then decodeTwoSecond s else decodeTwoFirst s)

/-- Writeback (R111). -/
def doWriteback (s : State) : State :=
  let r := if s.writePending then mmuWrite s else s
  setStep .interruptCheck { r with writePending := false }

/-- The interrupt check (R112, R253): one token consumed if one is pending, then back to fetch (D7, log 16). -/
def doInterruptCheck (s : State) : Result :=
  if s.pending then
    match supplyInterrupt s with
    | some (e, s') => .next (setStep .fetch (emit (.irq e.1 e.2) s'))
    | none => .refused .emptyQueue
  else .next (setStep .fetch s)

/-- The work of the pulse's step (R100, R101). -/
def stepWork (s : State) : Result :=
  match s.step with
  | .fetch => .next (doFetch s)
  | .decode => doDecode s
  | .execute => doExecute s
  | .writeback => .next (doWriteback s)
  | .interruptCheck => doInterruptCheck s

/-- `CPU.pulse()` (R100): while running, count the pulse and do the step's work; otherwise nothing (R124). -/
def pulse (s : State) : Result :=
  if s.status = .running then stepWork (countPulse s) else .next s

/-- `n` pulses. -/
def pulses : Nat → State → Result
  | 0, s => .next s
  | n + 1, s => andThen (pulse s) (pulses n)

/-- The recipients of the clock's pulses (60_exceptions.md R262). -/
inductive Listener where
  | cpu
  | memory
  deriving DecidableEq, Repr

/-- `Clock.addClockListener(l)`: order preserved (R262). -/
def addClockListener (l : Listener) (ls : List Listener) : List Listener := ls ++ [l]

/-- The listeners registered at boot: CPU first, then Memory (R262, R280; D28, log 19). -/
def bootListeners : List Listener := addClockListener .memory (addClockListener .cpu [])

/-- One listener's pulse handler (R263). -/
def listenerPulse : Listener → State → Result
  | .cpu, s => pulse s
  | .memory, s => .next (memoryPulse s)

/-- Every listener's pulse handler, in registration order (R263). -/
def notifyAll : List Listener → State → Result
  | [], s => .next s
  | l :: rest, s => andThen (listenerPulse l s) (notifyAll rest)

/-- One tick of the clock (R263). -/
def tick (s : State) : Result := notifyAll bootListeners s

/-- Between two instructions: the next pulse fetches, or the run has ended. -/
def atBoundary (s : State) : Bool := s.step == .fetch || s.status != .running

/-- Ticks until the machine is between two instructions, at most `n`. -/
def ticksToBoundary : Nat → State → Result
  | 0, s => .next s
  | n + 1, s => andThen (tick s) (fun s' => if atBoundary s' then .next s' else ticksToBoundary n s')

/-- One whole instruction: from a fetch to the end of its interrupt check, or to the end of the run. No instruction takes more
than seven pulses (70_reset_and_hazards.md R289). Started inside an instruction, it ends that instruction. Log 1. -/
def runInstruction (s : State) : Result := ticksToBoundary 7 s

end Sys2Proof.Machine
end

