-- ==== Sys2Proof/Machine/HostPort.lean ====
section
/-! DEFINITION. What the host can do to the CORE (60_exceptions.md R272): boot (70_reset_and_hazards.md R280 to R282) and the
calls between pulses (R249, R250, R254, R259, R264). None of it is reachable from an instruction. -/

namespace Sys2Proof.Machine

/-- The calls the host may make between two pulses. -/
inductive HostAction where
  | acceptInterrupt (t : Token) (p : Int)
  | keypress (t : Token)
  | addDevice (d : Device)
  | stop
  deriving DecidableEq, Repr

/-- The effect of one call. The keyboard's tokens carry KEY_PRIORITY (R254, D23). No call looks at `status` but the stop request, so
the other three still change `queue`, `pending` and `devices` after the run has ended: DESIGN CHOICE between R271 and R272,
log 31. -/
def hostAct (act : HostAction) (s : State) : State :=
  match act with
  | .acceptInterrupt t p => Sys2Proof.Machine.acceptInterrupt t p s
  | .keypress t => Sys2Proof.Machine.acceptInterrupt t Config.keyPriority s
  | .addDevice d => (Sys2Proof.Machine.addDevice Config.deviceCapacity d s).1
  | .stop => stopRequest s

/-- A finite sequence of calls, in order. -/
def hostActs : List HostAction → State → State
  | [], s => s
  | act :: rest, s => hostActs rest (hostAct act s)

/-- A run of ticks under a host schedule: before each tick, that tick's calls (R259; log 23). -/
def runSchedule : List (List HostAction) → State → Result
  | [], s => .next s
  | acts :: rest, s => andThen (tick (hostActs acts s)) (runSchedule rest)

/-- The first element of an image that is not a byte. -/
def firstBadByte : List Nat → Option Nat
  | [] => none
  | b :: rest => if b < 256 then firstBadByte rest else some b

/-- The memory of a booted machine: image byte i at address i, 0x00 elsewhere (20_memory.md R60, R282). -/
def imageMemory (image : List Nat) : Memory := Memory.loadFrom [] 0 (image.map (BitVec.ofNat 8))

/-- Boot: the reset state with the image loaded and the clock started; an image that does not fit is refused (R280, R282; log
24). -/
def boot (image : List Nat) : Result :=
  if image.length > 65536 then .refused (.imageTooLong image.length)
  else match firstBadByte image with
    | some b => .refused (.imageByteOutOfRange b)
    | none => .next { State.reset with mem := imageMemory image }

/-- `startClock()` on a machine that is already booted: refused (R264, D40; I11). -/
def startClockAgain (_ : State) : Result := .refused .clockAlreadyStarted

end Sys2Proof.Machine
end

