-- ==== Sys2Proof/Machine/Output.lean ====
section
/-! DEFINITION. What the host reads: the text of OutHex (44_system.md R212) and the trace record (60_exceptions.md R266). The text
of OutChar is the character-code collaborator's, out of scope (00_scope.md R5). -/

namespace Sys2Proof.Machine

/-- One hexadecimal digit, upper case (HEX_CASE, D18; log 28). -/
def hexDigit (n : Nat) : Char :=
  if n < 10 then Char.ofNat (0x30 + n) else Char.ofNat (0x41 + (n - 10))

/-- The text of `OutHex(y)`: exactly four digits, most significant first, zero-padded (R212). -/
def hexText (y : Byte) : List Char := ['0', '0', hexDigit (y.toNat / 16), hexDigit (y.toNat % 16)]

/-- The trace record offered after a pulse (R266, D31; log 22). -/
structure TraceRecord where
  cycles : Nat
  ir : Byte
  pc : Addr
  a : Byte
  x : Byte
  y : Byte
  z : Bool
  v : Bool
  mar : Addr
  mdr : Byte
  step : PipeStep
  deriving DecidableEq, Repr

/-- The trace record of a state at the end of a pulse (R266). -/
def traceRecord (s : State) : TraceRecord where
  cycles := s.cycles
  ir := s.ir
  pc := s.pc
  a := s.a
  x := s.x
  y := s.y
  z := s.z
  v := s.v
  mar := s.mar
  mdr := s.mdr
  step := s.step

end Sys2Proof.Machine
end

