-- ==== Sys2Proof/Machine/Step.lean ====
section
/-! DEFINITION. The step of the model: one whole instruction, pulse by pulse (log 1). -/

namespace Sys2Proof.Machine

/-- One step: the pulses of one instruction. On a machine that is not running, nothing changes (40_pipeline.md R124). -/
def step (s : State) : Host.Outcome State Fault Refusal := runInstruction s

/-- `s` with the instruction of an opcode-table word stored where the next step fetches: its three bytes at PC, the controller
at an instruction boundary and running, and X selecting the word's form of 0xFF. -/
def State.withFetchWord (s : State) (nbits w : Nat) : State :=
  { s with
    mem := ((s.mem.write (instrByteAddr s 0) (tableByte nbits w 0)).write (instrByteAddr s 1) (tableByte nbits w 1)).write
      (instrByteAddr s 2) (tableByte nbits w 2)
    x := fetchWordX nbits w s.x
    step := .fetch
    firstPass := false
    phase2 := false
    writePending := false
    mmuState := .idle
    status := .running
    faultReason := none }

end Sys2Proof.Machine
end

