-- ==== Sys2Proof/Safety.lean ====
section
/-! DEFINITION. The terms claims use: the invariant of the machine, when a step fetches, what an execute pulse sees, and
the pulses around the execute work. -/

namespace Sys2Proof.Machine

/-- The controller invariant (10_state.md R40), with the two facts that make it inductive: between two decode pulses the
opcode is two-operand, and between two execute pulses it is INC's. -/
structure State.PipelineOk (s : State) : Prop where
  firstPass : s.firstPass = true → s.step = .decode ∧ s.mmuState = .highPending ∧ classify s.ir s.x = .two
  phase2 : s.phase2 = true → s.step = .execute ∧ s.ir = 0xEE#8
  writePending : s.writePending = true → s.step = .writeback
  highPending : s.mmuState = .highPending → s.step = .decode ∧ s.firstPass = true
  lowPending : s.mmuState ≠ .lowPending

/-- `pending` is 1 exactly when the queue is non-empty (60_exceptions.md R252). -/
def State.PendingOk (s : State) : Prop := s.pending = true ↔ s.queue ≠ []

/-- Priorities are non-increasing from head to tail (60_exceptions.md R245). -/
def priorityOrdered (q : List (Token × Int)) : Prop := q.Pairwise (fun e f => f.2 ≤ e.2)

/-- The fault reason is present exactly when the run is faulted, and is a condition an instruction can raise (10_state.md R39,
60_exceptions.md R240, R241). -/
structure State.FaultOk (s : State) : Prop where
  present : s.status = .faulted ↔ s.faultReason.isSome = true
  reason : ∀ c, s.faultReason = some c →
    (∃ b : Byte, c = .codecInvalidByte b ∧ 0x7F < b.toNat) ∨ (∃ op, c = .illegalOpcode op ∧ op ∉ definedOpcodes)

/-- Every printed character is in [0x01, 0x7F] (44_system.md R211). -/
def State.OutOk (s : State) : Prop := ∀ b, .outChar b ∈ s.out → b ≠ 0x00#8 ∧ b.toNat ≤ 0x7F

/-- The machine's invariant. -/
structure State.Inv (s : State) : Prop where
  mem : s.mem.wf = true
  pipeline : s.PipelineOk
  pending : s.PendingOk
  queue : priorityOrdered s.queue
  fault : s.FaultOk
  out : s.OutOk
  devices : s.devices.length ≤ Config.deviceCapacity

/-- The next step fetches an instruction: the machine runs, stands between two instructions, and can pass an interrupt check. -/
structure State.Ready (s : State) : Prop where
  running : s.status = .running
  fetch : s.step = .fetch
  idle : s.mmuState = .idle
  firstPass : s.firstPass = false
  phase2 : s.phase2 = false
  writePending : s.writePending = false
  pending : s.PendingOk

/-- The operands of `i` as the execute work sees them in MAR and MDR (40_pipeline.md R114). -/
def State.SeesOperands (i : Instr) (s : State) : Prop :=
  match operandsOf i with
  | [] => s.mar = s.pc - 1#16 ∧ s.mdr = s.ir
  | [b1] => s.mar = s.pc - 1#16 ∧ s.mdr = b1
  | lo :: hi :: _ => s.mar = addrOf hi lo ∧ s.mdr = s.mem.read (addrOf hi lo)

/-- An execute pulse of `i` (40_pipeline.md R103, R109, R114): its opcode is in IR, X selects its form, its operands are in MAR and
MDR, and the MMU is idle. -/
structure State.AtExecute (i : Instr) (s : State) : Prop where
  opcode : s.ir = opcodeOf i
  form : i.wellFormed s.x = true
  operands : s.SeesOperands i
  idle : s.mmuState = .idle

/-- The state in which the execute work of `i` begins, when `s` is ready and `i` stands at its PC: the effect of the fetch
and decode pulses, the pulse that executes already counted (40_pipeline.md R102, R104 to R108, R114, R115). -/
def State.delivered (i : Instr) (s : State) : State :=
  match operandsOf i with
  | [] =>
    { s with
      ir := opcodeOf i, mar := s.pc, mdr := opcodeOf i, pc := s.pc + 1#16, step := .decode, cycles := s.cycles + 2 }
  | [b1] =>
    { s with
      ir := opcodeOf i, mar := s.pc + 1#16, mdr := b1, pc := s.pc + 2#16, step := .execute, cycles := s.cycles + 3 }
  | lo :: hi :: _ =>
    { s with
      ir := opcodeOf i, mar := addrOf hi lo, mdr := s.mem.read (addrOf hi lo), mmuLow := lo, pc := s.pc + 3#16
      step := .execute, cycles := s.cycles + 4 }

/-- The execute work of `i`, and of its second phase if it has one (40_pipeline.md R110, 42_arithmetic.md R172). -/
def executePhases (i : Instr) (d : State) : Result :=
  andThen (exec i d) fun u =>
    if u.status = .running ∧ u.phase2 = true then exec i (countPulse (finishExecute u)) else .next u

/-- The pulses after the execute work: the writeback pulse if a write is pending, then the interrupt check; none if the run
ended (40_pipeline.md R110 to R112). -/
def endInstruction (u : State) : Result :=
  if u.status ≠ .running then .next u
  else if u.writePending = true then doInterruptCheck (countPulse (doWriteback (countPulse (finishExecute u))))
  else doInterruptCheck (countPulse (finishExecute u))

/-- The instruction at PC stores to `ea`: STA or INC on that address (41_load_store.md R151, 42_arithmetic.md R173). -/
def State.storesTo (ea : Addr) (s : State) : Prop :=
  ∃ rest, decode s.x (fetchBytes s) = .ok (.staAbs ea, rest) ∨ decode s.x (fetchBytes s) = .ok (.incAbs ea, rest)

/-- `n` steps, none of an instruction that stores to `ea`, lead from the first state to the second. -/
def stepsWithoutStoreTo (ea : Addr) : Nat → State → State → Prop
  | 0, s, t => s = t
  | n + 1, s, t => ¬ s.storesTo ea ∧ ∃ u, step s = .next u ∧ stepsWithoutStoreTo ea n u t

/-- The pulses of a whole instruction that does not end the run (70_reset_and_hazards.md R289). -/
def pulsesOf : Instr → Nat
  | .ldaImm _ => 4
  | .ldaAbs _ => 5
  | .txa => 3
  | .tya => 3
  | .ldxImm _ => 4
  | .ldxAbs _ => 5
  | .tax => 3
  | .ldyImm _ => 4
  | .ldyAbs _ => 5
  | .tay => 3
  | .staAbs _ => 6
  | .adcAbs _ => 5
  | .incAbs _ => 7
  | .cpxAbs _ => 5
  | .bneRel _ => 4
  | .sysImplied => 3
  | .sysAbs _ => 5
  | .brk => 2
  | .nop => 3

/-- The bytes from address `a` on begin with the bytes of `l` (cyclically, 20_memory.md R62). -/
def holdsFrom (m : Memory) (a : Addr) : List Byte → Prop
  | [] => True
  | b :: rest => m.read a = b ∧ holdsFrom m (a + 1#16) rest

/-- A byte the string loop prints and goes on from: non-zero and at most 0x7F (44_system.md R215). -/
def isPrintable (b : Byte) : Prop := b ≠ 0x00#8 ∧ b.toNat ≤ 0x7F

/-- The events that are not consumed interrupts. -/
def outputEvents (l : List Event) : List Event :=
  l.filter (fun e => match e with
    | .irq _ _ => false
    | _ => true)

/-- `t` is `u` but for the parts of InterruptControl, and the output streams differ only in `Irq` events. -/
def sameButInterrupts (t u : State) : Prop :=
  u = { t with devices := u.devices, pending := u.pending, queue := u.queue, out := u.out } ∧
    outputEvents t.out = outputEvents u.out

end Sys2Proof.Machine
end

