-- ==== Sys2Proof/Certificates/Slice0/Obligations.lean ====
section
/-! DEFINITION. The statements for the provers, in the order of the spec's files: encoding, memory and MMU, the pipeline's
pulses, the execute work of each instruction, whole instructions, interrupts and host, reset and boot, invariants. -/

open Sys2Proof Sys2Proof.Machine

/-! ### Encoding (30_encoding.md) -/

/-- Decoding the encoding of any well-formed instruction, whatever bytes follow, gives it back with every operand bit. Rests on the
opcode map R85, most of whose bytes the spec marks as general knowledge (D8, log 6). -/
def Obligations.DecodeOfEncodeIsIdentity : Prop :=
  ∀ (x : Byte) (i : Instr) (rest : List Byte), i.wellFormed x = true →
    decode x (encode i ++ rest) = .ok (i, rest)

/-- Each byte sequence has one meaning: what decodes is the encoding of what it decodes to, and is well formed under the same X. The
opcode bytes and arity classes are mostly the spec's general knowledge (D8, D9, log 6). -/
def Obligations.EncodeOfDecodeIsIdentity : Prop :=
  ∀ (x : Byte) (bs rest : List Byte) (i : Instr), decode x bs = .ok (i, rest) →
    encode i ++ rest = bs ∧ i.wellFormed x = true

/-- The model's decoder rejects every byte value outside the 18 defined opcodes, and no defined one, as that undefined opcode,
whatever X is and whatever follows. That it rejects them by name is the model's choice (log 9): R86 has them decoded as
zero-operand, of length 1, and UndefinedOpcodeFollowsThePolicy says that the machine executes them so. Which 18 bytes are defined
(R85) is mostly the spec's general knowledge (D8, log 6). -/
def Obligations.UndefinedOpcodesRejectedByName : Prop :=
  definedOpcodes.Nodup ∧ definedOpcodes.length = 18 ∧
    ∀ (x op : Byte) (rest : List Byte),
      decode x (op :: rest) = .error (.undefinedOpcode op) ↔ op ∉ definedOpcodes

/-- R82, R88: the length is known from the opcode, and for 0xFF from X: 1, 2 or 3 bytes. The arity classes R84 are mostly the spec's
general knowledge (D8), and that 0xFF has three bytes otherwise is its decision D9 (both log 6). -/
def Obligations.InstructionLengthFromOpcodeAndX : Prop :=
  ∀ (x op : Byte) (rest rest' : List Byte) (i : Instr), decode x (op :: rest) = .ok (i, rest') →
    (encode i).length =
      if op = 0xFF#8 then (if x = 1#8 ∨ x = 2#8 then 1 else 3)
      else if op ∈ oneOperandSet then 2
      else if op ∈ twoOperandSet then 3
      else 1

/-- Words written out from R81 and R85 decode to the instructions they stand for (the spec's examples in 41_load_store.md to
44_system.md). The opcode bytes 0xAE, 0xA8, 0x8D, 0xEE and 0xD0 are the spec's general knowledge (D8, log 6). -/
def Obligations.SpecWordsDecode : Prop :=
  decode 0#8 [0xA9#8, 0x05#8] = .ok (.ldaImm 0x05#8, []) ∧
  decode 0#8 [0xAE#8, 0x34#8, 0x12#8] = .ok (.ldxAbs 0x1234#16, []) ∧
  decode 0#8 [0xA8#8] = .ok (.tay, []) ∧
  decode 0#8 [0x8D#8, 0x30#8, 0x00#8] = .ok (.staAbs 0x0030#16, []) ∧
  decode 0#8 [0xEE#8, 0x20#8, 0x00#8] = .ok (.incAbs 0x0020#16, []) ∧
  decode 0#8 [0xD0#8, 0xF8#8] = .ok (.bneRel 0xF8#8, []) ∧
  decode 1#8 [0xFF#8, 0x08#8, 0x00#8] = .ok (.sysImplied, [0x08#8, 0x00#8]) ∧
  decode 3#8 [0xFF#8, 0x08#8, 0x00#8] = .ok (.sysAbs 0x0008#16, []) ∧
  decode 0#8 [0x00#8] = .ok (.brk, [])

/-! ### Memory and MMU (20_memory.md) -/

/-- R51: any integer given to setMAR is reduced to 16 bits; a 16-bit argument is stored as it is; nothing else changes. -/
def Obligations.SetMarReducesAnyInteger : Prop :=
  ∀ (n : Int) (a : Addr) (s : State),
    ((getMAR (setMARInt n s)).toNat : Int) = n % 65536 ∧
    setMARInt n s = { s with mar := getMAR (setMARInt n s) } ∧
    getMAR (setMAR a s) = a ∧ setMAR a s = { s with mar := a }

/-- R51 to R53 in the order 90_conflicts.md C2 settles (E2, V-M2): setMAR(a); setMDR(d); write(); read() leaves MDR = d and
mem[a] = d, every other byte and every other piece of state as before. -/
def Obligations.WriteThenReadReturnsTheByte : Prop :=
  ∀ (s : State) (a : Addr) (d : Byte), s.mem.wf = true →
    ∃ t, memRead (memWrite (setMDR d (setMAR a s))) = t ∧ t.mdr = d ∧ t.mar = a ∧ t.mem.wf = true ∧
      (∀ b, t.mem.read b = if b = a then d else s.mem.read b) ∧
      t = { s with mar := a, mdr := d, mem := t.mem }

/-- The canonical form (log 3, the model's own): two canonical memories that read alike at every address are equal data. -/
def Obligations.MemoriesThatReadAlikeAreEqual : Prop :=
  ∀ m m' : Memory, m.wf = true → m'.wf = true → (∀ a, m.read a = m'.read a) → m = m'

/-- R55: MMU.read() in each state of the sequencer, and nothing else changes. -/
def Obligations.MmuReadBySequencerState : Prop :=
  ∀ s : State,
    (s.mmuState = .idle → mmuRead s = { s with mdr := s.mem.read s.mar }) ∧
    (s.mmuState = .lowPending →
      mmuRead s = { s with mdr := s.mem.read s.mar, mmuLow := s.mem.read s.mar, mmuState := .highPending }) ∧
    (s.mmuState = .highPending →
      ∃ ea, ea = addrOf (s.mem.read s.mar) s.mmuLow ∧ ea.toNat = s.mmuLow.toNat + 256 * (s.mem.read s.mar).toNat ∧
        mmuRead s = { s with mar := ea, mdr := s.mem.read ea, mmuState := .idle })

/-- R59: the net effect of the two decode pulses of a two-operand opcode whose operand bytes stand at p = PC and p + 1. -/
def Obligations.TwoDecodePulsesDereference : Prop :=
  ∀ s : State, s.status = .running → s.step = .decode → s.firstPass = false → classify s.ir s.x = .two →
    ∃ ea, ea.toNat = (s.mem.read s.pc).toNat + 256 * (s.mem.read (s.pc + 1#16)).toNat ∧
      andThen (pulse s) pulse =
        .next { s with
          mar := ea, mdr := s.mem.read ea, mmuState := .idle, mmuLow := s.mem.read s.pc, pc := s.pc + 2#16
          step := .execute, cycles := s.cycles + 2 }

/-! ### The pipeline's pulses (40_pipeline.md) -/

/-- R102: a fetch pulse reads the opcode at PC into IR and advances PC, modulo 65536; it raises no fault. -/
def Obligations.FetchPulse : Prop :=
  ∀ s : State, s.status = .running → s.step = .fetch → s.mmuState = .idle →
    pulse s = .next { s with
      cycles := s.cycles + 1, mar := s.pc, mdr := s.mem.read s.pc, ir := s.mem.read s.pc, pc := s.pc + 1#16
      step := .decode } ∧
    (s.pc = 0xFFFF#16 → s.pc + 1#16 = 0x0000#16)

/-- R106: the one decode pulse of a one-operand opcode reads its operand byte into MDR and its address into MAR. -/
def Obligations.OneOperandDecodePulse : Prop :=
  ∀ s : State, s.status = .running → s.step = .decode → s.mmuState = .idle → s.ir ∈ oneOperandSet →
    pulse s = .next { s with
      cycles := s.cycles + 1, mar := s.pc, mdr := s.mem.read s.pc, pc := s.pc + 1#16, step := .execute }

/-- R107, R108: the first decode pulse of a two-operand opcode (0xFF only with X not in {1, 2}) arms the MMU and reads the low
byte, and the step stays Decode; the second reads the high byte and dereferences the assembled address. -/
def Obligations.TwoOperandDecodePulses : Prop :=
  ∀ s : State, s.status = .running → s.step = .decode → s.ir ∈ twoOperandSet →
    (s.ir = 0xFF#8 → s.x ≠ 1#8 ∧ s.x ≠ 2#8) →
    (s.firstPass = false →
      pulse s = .next { s with
        cycles := s.cycles + 1, mar := s.pc, mdr := s.mem.read s.pc, mmuLow := s.mem.read s.pc
        mmuState := .highPending, pc := s.pc + 1#16, firstPass := true }) ∧
    (s.firstPass = true → s.mmuState = .highPending →
      pulse s = .next { s with
        cycles := s.cycles + 1, mar := addrOf (s.mem.read s.pc) s.mmuLow
        mdr := s.mem.read (addrOf (s.mem.read s.pc) s.mmuLow), mmuState := .idle, pc := s.pc + 1#16
        firstPass := false, step := .execute })

/-- R109, and R104, R105 by the spec's decision D5 (log 16): an execute pulse does the execute work of the instruction whose opcode
is in IR, with the operands that stand in MDR and MAR, and then chooses the next step; the decode pulse of a zero-operand opcode,
and of 0xFF with X in {1, 2}, does the same in that pulse and reads no byte. -/
def Obligations.ExecuteWorkIsDispatchedOnIr : Prop :=
  ∀ (s : State) (i : Instr), s.status = .running →
    (s.step = .execute ∧ s.AtExecute i) ∨
      (s.step = .decode ∧ s.ir = opcodeOf i ∧ i.wellFormed s.x = true ∧ operandsOf i = []) →
    pulse s = andThen (exec i { s with cycles := s.cycles + 1 }) (fun t => .next (finishExecute t))

/-- R110: after the execute work the next step is Execute if phase2 is set, else Writeback if a write is pending, else
InterruptCheck; a run that ended has no next step. -/
def Obligations.NextStepAfterExecute : Prop :=
  ∀ s : State,
    (s.status ≠ .running → finishExecute s = s) ∧
    (s.status = .running → s.phase2 = true → finishExecute s = { s with step := .execute }) ∧
    (s.status = .running → s.phase2 = false → s.writePending = true → finishExecute s = { s with step := .writeback }) ∧
    (s.status = .running → s.phase2 = false → s.writePending = false →
      finishExecute s = { s with step := .interruptCheck })

/-- R111: the writeback pulse stores MDR at MAR if a write is pending, and only there; it clears writePending and goes on to the
interrupt check. -/
def Obligations.WritebackPulseStoresAtMar : Prop :=
  ∀ s : State, s.mem.wf = true → s.status = .running → s.step = .writeback →
    ∃ t, pulse s = .next t ∧
      (∀ b, t.mem.read b = if s.writePending = true ∧ b = s.mar then s.mdr else s.mem.read b) ∧
      t = { s with mem := t.mem, cycles := s.cycles + 1, writePending := false, step := .interruptCheck }

/-- R112 (one pulse in both cases by the spec's decision D7, log 16; the Irq event is its D39, log 20): the interrupt check
consumes the head token if one is pending, and changes nothing but step and cycles if none is. -/
def Obligations.InterruptCheckConsumesTheHead : Prop :=
  ∀ s : State, s.status = .running → s.step = .interruptCheck →
    (s.pending = false → pulse s = .next { s with cycles := s.cycles + 1, step := .fetch }) ∧
    (∀ t p rest, s.pending = true → s.queue = (t, p) :: rest →
      pulse s = .next { s with
        cycles := s.cycles + 1, step := .fetch, queue := rest, pending := !rest.isEmpty, out := s.out ++ [.irq t p] })

/-- A machine that is not running: a pulse changes nothing, not even cycles (R124). A tick changes nothing either, which rests on
the spec's decision D28, an empty Memory.pulse (log 19); nor does a step, which is the model's choice (logs 1, 21). -/
def Obligations.NotRunningPulseChangesNothing : Prop :=
  ∀ s : State, s.status ≠ .running → pulse s = .next s ∧ tick s = .next s ∧ step s = .next s

/-- A STEP RUNS THE DECODED INSTRUCTION: where the bytes at PC decode to `i`, a step is the execute work of `i` in the state its
fetch and decode pulses leave (both phases for INC), then the writeback pulse if a write is pending and the interrupt check. The
step of this model is a whole instruction (log 1); how many pulses it counts, and that Writeback is skipped without a pending
write, are the spec's decisions D5 to D7 (log 16). -/
def Obligations.StepRunsDecodedInstruction : Prop :=
  ∀ (s : State) (i : Instr) (rest : List Byte), s.Ready → decode s.x (fetchBytes s) = .ok (i, rest) →
    step s = andThen (executePhases i (s.delivered i)) endInstruction

/-- R102, R104 to R108, R114, R115 (derived by the spec; D5, log 16): where the bytes at PC decode to `i`, one pulse for each of its
bytes answers a state whose next pulse, once counted, does the execute work of `i` in the state `s.delivered i`: its opcode in IR, its
operands in MAR and MDR, PC at the next instruction, and no other register, flag, byte of memory, interrupt or output changed. -/
def Obligations.ExecuteSeesOperands : Prop :=
  ∀ (s : State) (i : Instr) (rest : List Byte), s.Ready → decode s.x (fetchBytes s) = .ok (i, rest) →
    ∃ u, pulses (encode i).length s = .next u ∧ u.status = .running ∧ countPulse u = s.delivered i ∧
      pulse u = andThen (exec i (s.delivered i)) (fun t => .next (finishExecute t)) ∧
      (s.delivered i).AtExecute i ∧
      (s.delivered i).pc = s.pc + BitVec.ofNat 16 (encode i).length ∧
      s.delivered i = { s with
        ir := opcodeOf i, pc := (s.delivered i).pc, mar := (s.delivered i).mar, mdr := (s.delivered i).mdr
        mmuLow := (s.delivered i).mmuLow, step := (s.delivered i).step, cycles := (s.delivered i).cycles }

/-- R220 (the policy is the OPEN parameter, log 9): an undefined opcode takes one byte; under `nop` it changes no state and goes
on to its interrupt check, under `fault` the run ends faulted with PC after the opcode and nothing else changed. -/
def Obligations.UndefinedOpcodeFollowsThePolicy : Prop :=
  ∀ s : State, s.Ready → s.mem.read s.pc ∉ definedOpcodes →
    step s =
      match Config.illegalOpcodePolicy with
      | .nop => doInterruptCheck { s with
          ir := s.mem.read s.pc, mar := s.pc, mdr := s.mem.read s.pc, pc := s.pc + 1#16
          step := .interruptCheck, cycles := s.cycles + 3 }
      | .fault => .next { s with
          ir := s.mem.read s.pc, mar := s.pc, mdr := s.mem.read s.pc, pc := s.pc + 1#16
          step := .decode, cycles := s.cycles + 2
          status := .faulted, faultReason := some (.illegalOpcode (s.mem.read s.pc)) }

/-- R289 (derived by the spec from its decisions D5 to D7, log 16): the pulses of each instruction, when the run goes on or BRK
ends it. -/
def Obligations.PulsesPerInstruction : Prop :=
  ∀ (s t : State) (i : Instr) (rest : List Byte), s.Ready → decode s.x (fetchBytes s) = .ok (i, rest) →
    step s = .next t → t.status ≠ .faulted → t.cycles = s.cycles + pulsesOf i

/-! ### The execute work of each instruction (41_load_store.md to 44_system.md) -/

/-- R141, R142, R145, R146, R148, R149: each load completes with the immediate byte, or the byte at its address, in its register;
no flag (D21, log 17), no other register and no byte of memory changes. -/
def Obligations.LoadsWriteOnlyTheirRegister : Prop :=
  (∀ (b1 : Byte) (s : State), exec (.ldaImm b1) s = .next { s with a := b1 }) ∧
  (∀ (b1 : Byte) (s : State), exec (.ldxImm b1) s = .next { s with x := b1 }) ∧
  (∀ (b1 : Byte) (s : State), exec (.ldyImm b1) s = .next { s with y := b1 }) ∧
  (∀ (ea : Addr) (s : State), s.AtExecute (.ldaAbs ea) → exec (.ldaAbs ea) s = .next { s with a := s.mem.read ea }) ∧
  (∀ (ea : Addr) (s : State), s.AtExecute (.ldxAbs ea) → exec (.ldxAbs ea) s = .next { s with x := s.mem.read ea }) ∧
  (∀ (ea : Addr) (s : State), s.AtExecute (.ldyAbs ea) → exec (.ldyAbs ea) s = .next { s with y := s.mem.read ea })

/-- R143, R144, R147, R150 (which register each copies from is the spec's general knowledge, log 6): each transfer completes with
the copied byte in its destination and nothing else changed. -/
def Obligations.TransfersCopyTheirRegister : Prop :=
  ∀ s : State,
    exec .txa s = .next { s with a := s.x } ∧
    exec .tya s = .next { s with a := s.y } ∧
    exec .tax s = .next { s with x := s.a } ∧
    exec .tay s = .next { s with y := s.a }

/-- R151 (D14, log 17): STA completes its execute work with A in MDR and the write pending, no byte of memory changed yet; the
writeback pulse that follows stores A at the operand address and changes no other byte. -/
def Obligations.StoreCompletesInItsWriteback : Prop :=
  ∀ (ea : Addr) (s : State), s.AtExecute (.staAbs ea) → s.mem.wf = true →
    exec (.staAbs ea) s = .next { s with mdr := s.a, writePending := true } ∧
      ∃ t, doWriteback { s with mdr := s.a, writePending := true } = t ∧
        (∀ b, t.mem.read b = if b = ea then s.a else s.mem.read b) ∧
        t = { s with mem := t.mem, mdr := s.a, writePending := false, step := .interruptCheck }

/-- R170, R171: ADC completes with the sum modulo 256 in A, and V set exactly on two's-complement signed overflow (A and the
datum have the same bit 7 and the result has another); no carry, no Z (D21, log 17), nothing else changes. -/
def Obligations.AdcIsSignedAdditionWithOverflow : Prop :=
  ∀ (ea : Addr) (s : State), s.AtExecute (.adcAbs ea) →
    exec (.adcAbs ea) s = .next { s with
      a := s.a + s.mem.read ea
      v := (s.a.msb == (s.mem.read ea).msb) && ((s.a + s.mem.read ea).msb != s.a.msb) } ∧
    ((s.a.toInt + (s.mem.read ea).toInt < -128 ∨ 127 < s.a.toInt + (s.mem.read ea).toInt) ↔
      ((s.a.msb == (s.mem.read ea).msb) && ((s.a + s.mem.read ea).msb != s.a.msb)) = true)

/-- R172, R173 (D12, D13, log 17; INC_V_NOWRAP is the OPEN parameter, log 7): INC's first phase loads the byte into A; its second
leaves the byte plus one modulo 256 in A and MDR with the write pending, and sets V exactly when it wraps to 0. -/
def Obligations.IncPhasesThroughA : Prop :=
  ∀ (ea : Addr) (s : State), s.AtExecute (.incAbs ea) →
    (s.phase2 = false → exec (.incAbs ea) s = .next { s with a := s.mem.read ea, phase2 := true }) ∧
    (s.phase2 = true →
      exec (.incAbs ea) s = .next { s with
        a := s.a + 1#8, mdr := s.a + 1#8, writePending := true, phase2 := false
        v := if s.a = 0xFF#8 then true else (if Config.incVNoWrap = .keep then s.v else false) })

/-- R190 (cleared on inequality by the spec's decision D10, log 17): CPX completes with Z = (X = mem[EA]) and nothing else
changed. -/
def Obligations.CpxSetsZeroOnEquality : Prop :=
  ∀ (ea : Addr) (s : State), s.AtExecute (.cpxAbs ea) →
    exec (.cpxAbs ea) s = .next { s with z := decide (s.x = s.mem.read ea) }

/-- R191: BNE completes; with Z = 0, PC moves by the offset as a signed byte, modulo 65536; with Z = 1 nothing changes. The opcode byte
0xD0 is the spec's general knowledge (D8, log 6), and that exec takes the offset from the instruction's own b1, which decode left in
MDR, is the model's form (log 27). -/
def Obligations.BneBranchesWhenZeroIsClear : Prop :=
  ∀ (b1 : Byte) (s : State), encode (.bneRel b1) = [0xD0#8, b1] ∧
    (s.z = true → exec (.bneRel b1) s = .next s) ∧
    (s.z = false → exec (.bneRel b1) s = .next { s with pc := s.pc + b1.signExtend 16 }) ∧
    ((s.pc + b1.signExtend 16).toNat : Int) =
      ((s.pc.toNat : Int) + (if 0x7F < b1.toNat then (b1.toNat : Int) - 256 else b1.toNat)) % 65536

/-- R212, and R216 by the spec's decision D17 (log 18): SYS with X = 1 completes, appending OutHex(Y) to the output and changing
nothing else; the three-byte SYS with any X but 3 completes and changes nothing at execute. -/
def Obligations.SysOnePrintsYInHexAndOtherXNothing : Prop :=
  (∀ s : State, s.x = 0x01#8 → exec .sysImplied s = .next { s with out := s.out ++ [.outHex s.y] }) ∧
  ∀ (s : State) (ea : Addr), s.AtExecute (.sysAbs ea) → s.x ≠ 0x03#8 → exec (.sysAbs ea) s = .next s

/-- R212 (upper case by the spec's decision D18, log 28): the text of OutHex(y) is four hexadecimal digits, most significant first,
the first two zero. -/
def Obligations.HexTextIsFourDigits : Prop :=
  ∀ y : Byte, ∃ h l : Fin 16, h.val * 16 + l.val = y.toNat ∧
    hexText y = ['0', '0', "0123456789ABCDEF".toList[h.val]!, "0123456789ABCDEF".toList[l.val]!]

/-- R210, R213, R214, R215 (the whole loop in the one pulse by the spec's decision D16, log 14; SYS2_ADDRESS is the OPEN parameter,
log 8): where a string of printable bytes ends in a zero byte, SYS with X = 2 (one-byte form) and X = 3 (three-byte form)
complete: the bytes are emitted in order, MAR is the address of the zero, MDR is 0, and nothing else changes. -/
def Obligations.SysPrintsTerminatedString : Prop :=
  ∀ (s : State) (a : Addr) (str : List Byte), s.mmuState = .idle → (∀ b ∈ str, isPrintable b) →
    holdsFrom s.mem a (str ++ [0x00#8]) →
    (s.x = 0x02#8 → a = Config.sys2Address (sys2View s) →
      exec .sysImplied s = .next { s with
        mar := a + BitVec.ofNat 16 str.length, mdr := 0x00#8, out := s.out ++ str.map .outChar }) ∧
    (∀ ea, s.x = 0x03#8 → s.mar = ea → a = ea →
      exec (.sysAbs ea) s = .next { s with
        mar := a + BitVec.ofNat 16 str.length, mdr := 0x00#8, out := s.out ++ str.map .outChar })

/-- R213 (SYS2_ADDRESS, log 8): the three readings the spec's words admit agree when the SYS opcode stands in page 0x00 below
0x00FF, MAR holding the opcode's own address and PC the address after it. -/
def Obligations.Sys2ReadingsAgreeInPageZero : Prop :=
  ∀ (s : State) (op : Addr), op.toNat < 0x00FF → s.mar = op → s.pc = op + 1#16 →
    sys2PcPage (sys2View s) = sys2ZeroPage s ∧ sys2MarPage (sys2View s) = sys2ZeroPage s ∧
      (sys2ZeroPage s).toNat = s.y.toNat

/-- R215, R219, R242, R243 (the terminal fault is the spec's decision D19, log 13; the whole loop in the one pulse is its D16, log
14; for X = 2 the address is the OPEN parameter SYS2_ADDRESS, R213, log 8): a string byte above 0x7F ends the run faulted
with that byte recorded; the characters before it stay emitted, MAR and MDR hold its address and value, all else is kept. -/
def Obligations.SysFaultsOnByteAbove7F : Prop :=
  ∀ (s : State) (a : Addr) (str : List Byte) (bad : Byte), s.mmuState = .idle → (∀ b ∈ str, isPrintable b) →
    0x7F < bad.toNat → holdsFrom s.mem a (str ++ [bad]) →
    ∃ t, t = { s with
        mar := a + BitVec.ofNat 16 str.length, mdr := bad, out := s.out ++ str.map .outChar
        status := .faulted, faultReason := some (.codecInvalidByte bad) } ∧
      (s.x = 0x02#8 → a = Config.sys2Address (sys2View s) → exec .sysImplied s = .next t) ∧
      (∀ ea, s.x = 0x03#8 → s.mar = ea → a = ea → exec (.sysAbs ea) s = .next t)

/-- R215 (I6; the loop in one pulse is the spec's decision D16, log 14): SYS with X = 2, from whatever address the OPEN parameter
SYS2_ADDRESS gives (log 8), and SYS with X = 3 hang exactly when every byte of memory is printable: no zero and none above 0x7F. -/
def Obligations.SysHangsExactlyWhenNothingStopsIt : Prop :=
  ∀ s : State, s.mmuState = .idle →
    (s.x = 0x02#8 → (exec .sysImplied s = .fault .stringNeverEnds ↔ ∀ b, isPrintable (s.mem.read b))) ∧
    (∀ ea, s.x = 0x03#8 → (exec (.sysAbs ea) s = .fault .stringNeverEnds ↔ ∀ b, isPrintable (s.mem.read b)))

/-- R217, R218: BRK completes by halting and changes nothing else; NOP completes and changes nothing. -/
def Obligations.BrkHaltsAndNopDoesNothing : Prop :=
  ∀ s : State, exec .brk s = .next { s with status := .halted } ∧ exec .nop s = .next s

/-! ### Whole instructions -/

/-- R217, R256: a BRK at PC ends the run in its decode pulse: halted, PC after it, IR and MDR 0, MAR its address; no interrupt check
follows, so queue and output are as before. -/
def Obligations.BrkEndsTheRun : Prop :=
  ∀ s : State, s.Ready → s.mem.read s.pc = 0x00#8 →
    step s = .next { s with
      ir := 0x00#8, mar := s.pc, mdr := 0x00#8, pc := s.pc + 1#16, step := .decode, cycles := s.cycles + 2
      status := .halted }

/-- R151, R111 over the whole instruction: STA stores A at its operand address and changes no other byte of memory, no register, no
flag; PC is after it, MAR is the address, MDR is A. That A goes through MDR and is stored in the writeback pulse is the spec's
decision D14, and that no flag changes its D21 (both log 17). -/
def Obligations.StaWholeInstruction : Prop :=
  ∀ (s : State) (ea : Addr) (rest : List Byte), s.Ready → s.mem.wf = true →
    decode s.x (fetchBytes s) = .ok (.staAbs ea, rest) →
    ∃ t, step s = .next t ∧ (∀ b, t.mem.read b = if b = ea then s.a else s.mem.read b) ∧
      t.a = s.a ∧ t.x = s.x ∧ t.y = s.y ∧ t.z = s.z ∧ t.v = s.v ∧ t.pc = s.pc + 3#16 ∧ t.mar = ea ∧ t.mdr = s.a ∧
      t.status = .running ∧ t.step = .fetch

/-- R174 (derived by the spec; INC_V_NOWRAP is the OPEN parameter, log 7): INC as a whole leaves the byte plus one modulo 256 at
its address and in A, V set when it was 0xFF, X, Y, Z and every other byte unchanged, in seven pulses. That the result stays in A and
MDR and goes through Writeback is the spec's decisions D12 and D13 (log 17), that Z is kept its D21 (log 17), and the seven pulses
rest on D12 and D7 (log 16). -/
def Obligations.IncWholeInstruction : Prop :=
  ∀ (s : State) (ea : Addr) (rest : List Byte), s.Ready → s.mem.wf = true →
    decode s.x (fetchBytes s) = .ok (.incAbs ea, rest) →
    ∃ t, step s = .next t ∧
      (∀ b, t.mem.read b = if b = ea then s.mem.read ea + 1#8 else s.mem.read b) ∧
      t.a = s.mem.read ea + 1#8 ∧
      t.v = (if s.mem.read ea = 0xFF#8 then true else (if Config.incVNoWrap = .keep then s.v else false)) ∧
      t.x = s.x ∧ t.y = s.y ∧ t.z = s.z ∧ t.pc = s.pc + 3#16 ∧ t.mar = ea ∧ t.mdr = s.mem.read ea + 1#8 ∧
      t.cycles = s.cycles + 7 ∧ t.status = .running

/-- R192: BNE is the only instruction that writes PC other than by sequential advance; BNE with Z = 0 goes to the offset from the
next instruction. -/
def Obligations.OnlyBneLeavesTheSequence : Prop :=
  ∀ (s t : State) (i : Instr) (rest : List Byte), s.Ready → decode s.x (fetchBytes s) = .ok (i, rest) →
    step s = .next t →
    t.pc = s.pc + BitVec.ofNat 16 (encode i).length +
      (match i with
        | .bneRel b1 => if s.z = true then 0#16 else b1.signExtend 16
        | _ => 0#16)

/-- R21, R22, R23, R27, R28: over a whole instruction each register and flag changes only under its listed writers. That no other
instruction writes Z or V is the spec's decisions D10 and D21 (log 17), and the writers are named by opcode bytes that are mostly
its general knowledge (D8, log 6). -/
def Obligations.RegistersHaveOnlyTheirListedWriters : Prop :=
  ∀ (s t : State) (i : Instr) (rest : List Byte), s.Ready → decode s.x (fetchBytes s) = .ok (i, rest) →
    step s = .next t →
    (t.a ≠ s.a → opcodeOf i ∈ [0xA9#8, 0xAD#8, 0x8A#8, 0x98#8, 0x6D#8, 0xEE#8]) ∧
    (t.x ≠ s.x → opcodeOf i ∈ [0xA2#8, 0xAE#8, 0xAA#8]) ∧
    (t.y ≠ s.y → opcodeOf i ∈ [0xA0#8, 0xAC#8, 0xA8#8]) ∧
    (t.z ≠ s.z → opcodeOf i = 0xEC#8) ∧
    (t.v ≠ s.v → opcodeOf i ∈ [0x6D#8, 0xEE#8])

/-- R111, R151, R173: over a whole instruction memory changes only under STA and INC, and then only at the operand address (that both
store through Writeback is the spec's decisions D12 and D14, log 17). -/
def Obligations.OnlyStaAndIncChangeMemory : Prop :=
  ∀ (s t : State) (i : Instr) (rest : List Byte), s.Ready → s.mem.wf = true →
    decode s.x (fetchBytes s) = .ok (i, rest) → step s = .next t →
    ∀ b, t.mem.read b ≠ s.mem.read b → i = .staAbs b ∨ i = .incAbs b

/-- R68, R285 (derived by the spec): a store is seen by every later fetch. After a whole STA or INC (step: log 1; both store in their
writeback pulse: D12, D14, log 17), and any number of further steps of which none stores to that address, the address holds the
stored byte. The next fetch, if it is at that address, reads it as the opcode; and if the instruction at PC has that address among
its bytes, the stored byte is that byte of it, and its fetch and decode pulses deliver it so. An undefined opcode among the steps
follows the OPEN policy (log 9); the byte INC stores does not depend on INC_V_NOWRAP (log 7). -/
def Obligations.StoreIsSeenByEveryLaterFetch : Prop :=
  ∀ (s : State) (i : Instr) (ea : Addr) (v : Byte) (rest : List Byte), s.Ready → s.mem.wf = true →
    decode s.x (fetchBytes s) = .ok (i, rest) →
    (i = .staAbs ea ∧ v = s.a) ∨ (i = .incAbs ea ∧ v = s.mem.read ea + 1#8) →
    ∃ t, step s = .next t ∧ t.Ready ∧ t.pc = s.pc + 3#16 ∧
      ∀ n w, stepsWithoutStoreTo ea n t w →
        w.mem.read ea = v ∧
        (w.status = .running →
          w.Ready ∧
          (w.pc = ea → ∃ u, pulse w = .next u ∧ u.ir = v) ∧
          ∀ j rest', decode w.x (fetchBytes w) = .ok (j, rest') →
            (∃ u, pulses (encode j).length w = .next u ∧ countPulse u = w.delivered j) ∧
            ∀ k, k < (encode j).length → w.pc + BitVec.ofNat 16 k = ea → (encode j)[k]? = some v)

/-! ### Interrupts, clock and host (60_exceptions.md) -/

/-- R246 (90_conflicts.md C1): enqueue inserts before the first node whose priority is at most the new one, or at the tail; that
keeps priorities non-increasing from the head. -/
def Obligations.EnqueueInsertsBeforeTheFirstNotGreater : Prop :=
  ∀ (t : Token) (p : Int) (q : List (Token × Int)),
    (∃ front back, q = front ++ back ∧ enqueue t p q = front ++ (t, p) :: back ∧
      (∀ e ∈ front, p < e.2) ∧ (∀ e, back.head? = some e → e.2 ≤ p)) ∧
    (priorityOrdered q → priorityOrdered (enqueue t p q))

/-- R245, R256 (E3, V-Q1 to V-Q3): whatever tokens are accepted in whatever order, the queue holds exactly those, priorities
non-increasing from the head, and among equal priorities the most recently accepted first. -/
def Obligations.QueueIsPriorityOrderTiesMostRecentFirst : Prop :=
  ∀ (l : List (Token × Int)) (s : State), s.queue = [] →
    ∃ q, (l.foldl (fun u e => acceptInterrupt e.1 e.2 u) s).queue = q ∧ priorityOrdered q ∧ q.Perm l ∧
      ∀ p : Int, q.filter (fun e => e.2 == p) = (l.filter (fun e => e.2 == p)).reverse

/-- R247, R250, R251: acceptInterrupt enqueues the token and sets pending; supplyInterrupt removes and returns the head and clears
pending once the queue empties; neither changes anything else. -/
def Obligations.AcceptAndSupplyTouchOnlyTheQueue : Prop :=
  (∀ (t : Token) (p : Int) (s : State),
    acceptInterrupt t p s = { s with queue := enqueue t p s.queue, pending := true }) ∧
  ∀ (s : State) (e : Token × Int) (rest : List (Token × Int)), s.queue = e :: rest →
    supplyInterrupt s = some (e, { s with queue := rest, pending := if rest = [] then false else s.pending })

/-- R252 (derived by the spec): pending is 1 exactly when the queue is non-empty: at reset, after every call of the host, and
after every supplyInterrupt. -/
def Obligations.PendingTracksTheQueue : Prop :=
  State.reset.PendingOk ∧
    (∀ (s : State) (act : HostAction), s.PendingOk → (hostAct act s).PendingOk) ∧
    (∀ (s s' : State) (e : Token × Int), s.PendingOk → supplyInterrupt s = some (e, s') → s'.PendingOk)

/-- R249 (DEVICE_CAPACITY is an argument): a device is registered while there is room; otherwise the registration is skipped and
DeviceCapacity is reported; nothing else changes. -/
def Obligations.AddDeviceUpToCapacity : Prop :=
  ∀ (capacity : Nat) (d : Device) (s : State),
    (s.devices.length < capacity → addDevice capacity d s = ({ s with devices := s.devices ++ [d] }, none)) ∧
    (capacity ≤ s.devices.length → addDevice capacity d s = (s, some (.deviceCapacity d)))

/-- R264, R122 (permanent by the spec's decision D34, log 21): a stop request stops a running machine and nothing else, is
idempotent, and does not overwrite another end of the run. -/
def Obligations.StopRequestOnlyStops : Prop :=
  ∀ s : State,
    (s.status = .running → stopRequest s = { s with status := .stopped }) ∧
    (s.status ≠ .running → stopRequest s = s) ∧ stopRequest (stopRequest s) = stopRequest s

/-- R122, R124, R243, R271: after the run has ended, whatever the host does before each of any number of ticks, no register, flag,
byte of memory, output event, cycle count, status or controller flag ever changes, and a pending store is never committed. The
devices, the pending flag and the queue may change by the host's calls (the model's choice, log 31). That halted and stopped are
permanent is the spec's decisions D33 and D34 (log 21), and that a fault ends the run its D19 and D20 (log 13). -/
def Obligations.EndedRunNeverChanges : Prop :=
  ∀ (sched : List (List HostAction)) (s : State), s.status ≠ .running →
    ∃ t, runSchedule sched s = .next t ∧
      t = { s with devices := t.devices, pending := t.pending, queue := t.queue }

/-- R66, R250, R272: no call of the host changes a register, a flag, memory, the MMU, the controller, the counter or the output. -/
def Obligations.HostNeverTouchesTheCpu : Prop :=
  ∀ (acts : List HostAction) (s : State),
    ∃ t, hostActs acts s = t ∧
      t = { s with devices := t.devices, pending := t.pending, queue := t.queue, status := t.status } ∧
      (t.status = s.status ∨ (s.status = .running ∧ t.status = .stopped))

/-- R263 (the listener order and the empty Memory.pulse are the spec's decision D28, log 19): a tick is the CPU's pulse, then the
memory's, which changes nothing. -/
def Obligations.TickPulsesCpuThenMemory : Prop :=
  bootListeners = [.cpu, .memory] ∧ ∀ s : State, tick s = andThen (pulse s) (fun t => .next (memoryPulse t)) ∧ tick s = pulse s

/-- R117, R253, R259 (V-Q7): tokens never change what the machine computes: under any host schedule without a stop request, a run
and the run without any host call both go on, and end in states that differ only in the interrupt state and the `Irq` events of
the output; or both hang in the string loop. It leans on what SYS2_ADDRESS may read (log 8), on the spec's decision D39 that consuming
a token only emits `Irq` (log 20), and for the hang on its D16 (log 14). -/
def Obligations.TokensNeverChangeTheRun : Prop :=
  ∀ (sched : List (List HostAction)) (s : State), s.PendingOk → (∀ acts ∈ sched, HostAction.stop ∉ acts) →
    (∃ t u, runSchedule sched s = .next t ∧ runSchedule (sched.map fun _ => []) s = .next u ∧ sameButInterrupts t u) ∨
    (runSchedule sched s = .fault .stringNeverEnds ∧
      runSchedule (sched.map fun _ => []) s = .fault .stringNeverEnds)

/-! ### Reset and boot (70_reset_and_hazards.md) -/

/-- R42, R281 (the spec's decisions D2, D3, D4, D30; log 2, log 3): reset leaves every register, flag and controller bit 0, the MMU
idle, the queue, registry and output empty, status running, PC 0x0000 and step Fetch, and every byte of memory 0x00. -/
def Obligations.ResetState : Prop :=
  State.reset.pc = 0x0000#16 ∧ State.reset.step = .fetch ∧ State.reset.status = .running ∧
  State.reset.faultReason = none ∧
  (State.reset.a, State.reset.x, State.reset.y, State.reset.ir, State.reset.mdr, State.reset.mmuLow) =
    (0x00#8, 0x00#8, 0x00#8, 0x00#8, 0x00#8, 0x00#8) ∧
  State.reset.mar = 0x0000#16 ∧ State.reset.mmuState = .idle ∧
  (State.reset.z, State.reset.v, State.reset.firstPass, State.reset.phase2, State.reset.writePending, State.reset.pending) =
    (false, false, false, false, false, false) ∧
  State.reset.queue = [] ∧ State.reset.devices = [] ∧ State.reset.out = [] ∧ State.reset.cycles = 0 ∧
  ∀ a, State.reset.mem.read a = 0x00#8

/-- R280, R282 (the spec's decisions D3 and D37; log 24): an image of at most 65536 bytes boots to the reset state with byte i of the
image at address i and 0x00 elsewhere; any other image is refused. -/
def Obligations.BootLoadsAnImageThatFits : Prop :=
  ∀ image : List Nat,
    ((image.length ≤ 65536 ∧ ∀ b ∈ image, b < 256) →
      ∃ m, boot image = .next { State.reset with mem := m } ∧ m.wf = true ∧
        ∀ a : Addr, (m.read a).toNat = image.getD a.toNat 0) ∧
    (¬ (image.length ≤ 65536 ∧ ∀ b ∈ image, b < 256) → ∃ r, boot image = .refused r)

/-! ### Invariants -/

/-- The reset state meets the invariant, and so does every booted machine (reset values: log 2). -/
def Obligations.ResetAndBootMeetTheInvariant : Prop :=
  State.reset.Inv ∧ ∀ (image : List Nat) (s : State), boot image = .next s → s.Inv

/-- R40: every pulse, from every state that meets the invariant, keeps it: the controller flags and the MMU agree with the step,
memory stays canonical, pending tracks the queue, the queue stays in priority order, a fault reason stands exactly with a
faulted run, and only printable characters are emitted. -/
def Obligations.PulseKeepsTheInvariant : Prop :=
  ∀ s t : State, s.Inv → pulse s = .next t → t.Inv

/-- Every step, from every state that meets the invariant, keeps it. -/
def Obligations.StepKeepsTheInvariant : Prop :=
  ∀ s t : State, s.Inv → step s = .next t → t.Inv

/-- Every call of the host keeps the invariant. -/
def Obligations.HostKeepsTheInvariant : Prop :=
  ∀ (acts : List HostAction) (s : State), s.Inv → (hostActs acts s).Inv

/-- R62, R240, R241, R247, R289: from every state that meets the invariant a step ends between two instructions, is never refused,
and fails to answer a next state only by the string loop over a memory in which every byte is printable (I6). From a state between
two instructions it always answers: the SYS opcode 0xFF is itself no printable byte, so a SYS that was fetched never hangs. The step
is the model's (log 1), its seven ticks are log 29, and the string loop in one pulse is the spec's decision D16 (log 14). -/
def Obligations.StepAlwaysCompletes : Prop :=
  ∀ s : State, s.Inv →
    ((∃ t, step s = .next t ∧ atBoundary t = true) ∨
      (step s = .fault .stringNeverEnds ∧ ∀ b, isPrintable (s.mem.read b))) ∧
    (atBoundary s = true → ∃ t, step s = .next t ∧ atBoundary t = true)
end

