-- ==== Sys2Proof/Laws/State.lean ====
section
/-! SUPPORT. One lemma per field per update of the shared operations, so that no later proof unfolds a record update. -/

namespace Sys2Proof.Machine

/-! ### `setMAR` -/

@[simp] theorem setMAR_a (n : Addr) (s : State) : (setMAR n s).a = s.a := rfl
@[simp] theorem setMAR_x (n : Addr) (s : State) : (setMAR n s).x = s.x := rfl
@[simp] theorem setMAR_y (n : Addr) (s : State) : (setMAR n s).y = s.y := rfl
@[simp] theorem setMAR_pc (n : Addr) (s : State) : (setMAR n s).pc = s.pc := rfl
@[simp] theorem setMAR_ir (n : Addr) (s : State) : (setMAR n s).ir = s.ir := rfl
@[simp] theorem setMAR_z (n : Addr) (s : State) : (setMAR n s).z = s.z := rfl
@[simp] theorem setMAR_v (n : Addr) (s : State) : (setMAR n s).v = s.v := rfl
@[simp] theorem setMAR_mem (n : Addr) (s : State) : (setMAR n s).mem = s.mem := rfl
@[simp] theorem setMAR_mar (n : Addr) (s : State) : (setMAR n s).mar = n := rfl
@[simp] theorem setMAR_mdr (n : Addr) (s : State) : (setMAR n s).mdr = s.mdr := rfl
@[simp] theorem setMAR_mmuState (n : Addr) (s : State) : (setMAR n s).mmuState = s.mmuState := rfl
@[simp] theorem setMAR_mmuLow (n : Addr) (s : State) : (setMAR n s).mmuLow = s.mmuLow := rfl
@[simp] theorem setMAR_step (n : Addr) (s : State) : (setMAR n s).step = s.step := rfl
@[simp] theorem setMAR_firstPass (n : Addr) (s : State) : (setMAR n s).firstPass = s.firstPass := rfl
@[simp] theorem setMAR_phase2 (n : Addr) (s : State) : (setMAR n s).phase2 = s.phase2 := rfl
@[simp] theorem setMAR_writePending (n : Addr) (s : State) : (setMAR n s).writePending = s.writePending := rfl
@[simp] theorem setMAR_devices (n : Addr) (s : State) : (setMAR n s).devices = s.devices := rfl
@[simp] theorem setMAR_pending (n : Addr) (s : State) : (setMAR n s).pending = s.pending := rfl
@[simp] theorem setMAR_queue (n : Addr) (s : State) : (setMAR n s).queue = s.queue := rfl
@[simp] theorem setMAR_cycles (n : Addr) (s : State) : (setMAR n s).cycles = s.cycles := rfl
@[simp] theorem setMAR_status (n : Addr) (s : State) : (setMAR n s).status = s.status := rfl
@[simp] theorem setMAR_faultReason (n : Addr) (s : State) : (setMAR n s).faultReason = s.faultReason := rfl
@[simp] theorem setMAR_out (n : Addr) (s : State) : (setMAR n s).out = s.out := rfl

/-! ### `setMDR` -/

@[simp] theorem setMDR_a (d : Byte) (s : State) : (setMDR d s).a = s.a := rfl
@[simp] theorem setMDR_x (d : Byte) (s : State) : (setMDR d s).x = s.x := rfl
@[simp] theorem setMDR_y (d : Byte) (s : State) : (setMDR d s).y = s.y := rfl
@[simp] theorem setMDR_pc (d : Byte) (s : State) : (setMDR d s).pc = s.pc := rfl
@[simp] theorem setMDR_ir (d : Byte) (s : State) : (setMDR d s).ir = s.ir := rfl
@[simp] theorem setMDR_z (d : Byte) (s : State) : (setMDR d s).z = s.z := rfl
@[simp] theorem setMDR_v (d : Byte) (s : State) : (setMDR d s).v = s.v := rfl
@[simp] theorem setMDR_mem (d : Byte) (s : State) : (setMDR d s).mem = s.mem := rfl
@[simp] theorem setMDR_mar (d : Byte) (s : State) : (setMDR d s).mar = s.mar := rfl
@[simp] theorem setMDR_mdr (d : Byte) (s : State) : (setMDR d s).mdr = d := rfl
@[simp] theorem setMDR_mmuState (d : Byte) (s : State) : (setMDR d s).mmuState = s.mmuState := rfl
@[simp] theorem setMDR_mmuLow (d : Byte) (s : State) : (setMDR d s).mmuLow = s.mmuLow := rfl
@[simp] theorem setMDR_step (d : Byte) (s : State) : (setMDR d s).step = s.step := rfl
@[simp] theorem setMDR_firstPass (d : Byte) (s : State) : (setMDR d s).firstPass = s.firstPass := rfl
@[simp] theorem setMDR_phase2 (d : Byte) (s : State) : (setMDR d s).phase2 = s.phase2 := rfl
@[simp] theorem setMDR_writePending (d : Byte) (s : State) : (setMDR d s).writePending = s.writePending := rfl
@[simp] theorem setMDR_devices (d : Byte) (s : State) : (setMDR d s).devices = s.devices := rfl
@[simp] theorem setMDR_pending (d : Byte) (s : State) : (setMDR d s).pending = s.pending := rfl
@[simp] theorem setMDR_queue (d : Byte) (s : State) : (setMDR d s).queue = s.queue := rfl
@[simp] theorem setMDR_cycles (d : Byte) (s : State) : (setMDR d s).cycles = s.cycles := rfl
@[simp] theorem setMDR_status (d : Byte) (s : State) : (setMDR d s).status = s.status := rfl
@[simp] theorem setMDR_faultReason (d : Byte) (s : State) : (setMDR d s).faultReason = s.faultReason := rfl
@[simp] theorem setMDR_out (d : Byte) (s : State) : (setMDR d s).out = s.out := rfl

/-! ### `memRead` -/

@[simp] theorem memRead_a (s : State) : (memRead s).a = s.a := rfl
@[simp] theorem memRead_x (s : State) : (memRead s).x = s.x := rfl
@[simp] theorem memRead_y (s : State) : (memRead s).y = s.y := rfl
@[simp] theorem memRead_pc (s : State) : (memRead s).pc = s.pc := rfl
@[simp] theorem memRead_ir (s : State) : (memRead s).ir = s.ir := rfl
@[simp] theorem memRead_z (s : State) : (memRead s).z = s.z := rfl
@[simp] theorem memRead_v (s : State) : (memRead s).v = s.v := rfl
@[simp] theorem memRead_mem (s : State) : (memRead s).mem = s.mem := rfl
@[simp] theorem memRead_mar (s : State) : (memRead s).mar = s.mar := rfl
@[simp] theorem memRead_mdr (s : State) : (memRead s).mdr = s.mem.read s.mar := rfl
@[simp] theorem memRead_mmuState (s : State) : (memRead s).mmuState = s.mmuState := rfl
@[simp] theorem memRead_mmuLow (s : State) : (memRead s).mmuLow = s.mmuLow := rfl
@[simp] theorem memRead_step (s : State) : (memRead s).step = s.step := rfl
@[simp] theorem memRead_firstPass (s : State) : (memRead s).firstPass = s.firstPass := rfl
@[simp] theorem memRead_phase2 (s : State) : (memRead s).phase2 = s.phase2 := rfl
@[simp] theorem memRead_writePending (s : State) : (memRead s).writePending = s.writePending := rfl
@[simp] theorem memRead_devices (s : State) : (memRead s).devices = s.devices := rfl
@[simp] theorem memRead_pending (s : State) : (memRead s).pending = s.pending := rfl
@[simp] theorem memRead_queue (s : State) : (memRead s).queue = s.queue := rfl
@[simp] theorem memRead_cycles (s : State) : (memRead s).cycles = s.cycles := rfl
@[simp] theorem memRead_status (s : State) : (memRead s).status = s.status := rfl
@[simp] theorem memRead_faultReason (s : State) : (memRead s).faultReason = s.faultReason := rfl
@[simp] theorem memRead_out (s : State) : (memRead s).out = s.out := rfl

/-! ### `memWrite` -/

@[simp] theorem memWrite_a (s : State) : (memWrite s).a = s.a := rfl
@[simp] theorem memWrite_x (s : State) : (memWrite s).x = s.x := rfl
@[simp] theorem memWrite_y (s : State) : (memWrite s).y = s.y := rfl
@[simp] theorem memWrite_pc (s : State) : (memWrite s).pc = s.pc := rfl
@[simp] theorem memWrite_ir (s : State) : (memWrite s).ir = s.ir := rfl
@[simp] theorem memWrite_z (s : State) : (memWrite s).z = s.z := rfl
@[simp] theorem memWrite_v (s : State) : (memWrite s).v = s.v := rfl
@[simp] theorem memWrite_mem (s : State) : (memWrite s).mem = s.mem.write s.mar s.mdr := rfl
@[simp] theorem memWrite_mar (s : State) : (memWrite s).mar = s.mar := rfl
@[simp] theorem memWrite_mdr (s : State) : (memWrite s).mdr = s.mdr := rfl
@[simp] theorem memWrite_mmuState (s : State) : (memWrite s).mmuState = s.mmuState := rfl
@[simp] theorem memWrite_mmuLow (s : State) : (memWrite s).mmuLow = s.mmuLow := rfl
@[simp] theorem memWrite_step (s : State) : (memWrite s).step = s.step := rfl
@[simp] theorem memWrite_firstPass (s : State) : (memWrite s).firstPass = s.firstPass := rfl
@[simp] theorem memWrite_phase2 (s : State) : (memWrite s).phase2 = s.phase2 := rfl
@[simp] theorem memWrite_writePending (s : State) : (memWrite s).writePending = s.writePending := rfl
@[simp] theorem memWrite_devices (s : State) : (memWrite s).devices = s.devices := rfl
@[simp] theorem memWrite_pending (s : State) : (memWrite s).pending = s.pending := rfl
@[simp] theorem memWrite_queue (s : State) : (memWrite s).queue = s.queue := rfl
@[simp] theorem memWrite_cycles (s : State) : (memWrite s).cycles = s.cycles := rfl
@[simp] theorem memWrite_status (s : State) : (memWrite s).status = s.status := rfl
@[simp] theorem memWrite_faultReason (s : State) : (memWrite s).faultReason = s.faultReason := rfl
@[simp] theorem memWrite_out (s : State) : (memWrite s).out = s.out := rfl

/-! ### `setLittleFlag` -/

@[simp] theorem setLittleFlag_a (s : State) : (setLittleFlag s).a = s.a := rfl
@[simp] theorem setLittleFlag_x (s : State) : (setLittleFlag s).x = s.x := rfl
@[simp] theorem setLittleFlag_y (s : State) : (setLittleFlag s).y = s.y := rfl
@[simp] theorem setLittleFlag_pc (s : State) : (setLittleFlag s).pc = s.pc := rfl
@[simp] theorem setLittleFlag_ir (s : State) : (setLittleFlag s).ir = s.ir := rfl
@[simp] theorem setLittleFlag_z (s : State) : (setLittleFlag s).z = s.z := rfl
@[simp] theorem setLittleFlag_v (s : State) : (setLittleFlag s).v = s.v := rfl
@[simp] theorem setLittleFlag_mem (s : State) : (setLittleFlag s).mem = s.mem := rfl
@[simp] theorem setLittleFlag_mar (s : State) : (setLittleFlag s).mar = s.mar := rfl
@[simp] theorem setLittleFlag_mdr (s : State) : (setLittleFlag s).mdr = s.mdr := rfl
@[simp] theorem setLittleFlag_mmuState (s : State) : (setLittleFlag s).mmuState = .lowPending := rfl
@[simp] theorem setLittleFlag_mmuLow (s : State) : (setLittleFlag s).mmuLow = s.mmuLow := rfl
@[simp] theorem setLittleFlag_step (s : State) : (setLittleFlag s).step = s.step := rfl
@[simp] theorem setLittleFlag_firstPass (s : State) : (setLittleFlag s).firstPass = s.firstPass := rfl
@[simp] theorem setLittleFlag_phase2 (s : State) : (setLittleFlag s).phase2 = s.phase2 := rfl
@[simp] theorem setLittleFlag_writePending (s : State) : (setLittleFlag s).writePending = s.writePending := rfl
@[simp] theorem setLittleFlag_devices (s : State) : (setLittleFlag s).devices = s.devices := rfl
@[simp] theorem setLittleFlag_pending (s : State) : (setLittleFlag s).pending = s.pending := rfl
@[simp] theorem setLittleFlag_queue (s : State) : (setLittleFlag s).queue = s.queue := rfl
@[simp] theorem setLittleFlag_cycles (s : State) : (setLittleFlag s).cycles = s.cycles := rfl
@[simp] theorem setLittleFlag_status (s : State) : (setLittleFlag s).status = s.status := rfl
@[simp] theorem setLittleFlag_faultReason (s : State) : (setLittleFlag s).faultReason = s.faultReason := rfl
@[simp] theorem setLittleFlag_out (s : State) : (setLittleFlag s).out = s.out := rfl

/-! ### `incPC` -/

@[simp] theorem incPC_a (s : State) : (incPC s).a = s.a := rfl
@[simp] theorem incPC_x (s : State) : (incPC s).x = s.x := rfl
@[simp] theorem incPC_y (s : State) : (incPC s).y = s.y := rfl
@[simp] theorem incPC_pc (s : State) : (incPC s).pc = s.pc + 1#16 := rfl
@[simp] theorem incPC_ir (s : State) : (incPC s).ir = s.ir := rfl
@[simp] theorem incPC_z (s : State) : (incPC s).z = s.z := rfl
@[simp] theorem incPC_v (s : State) : (incPC s).v = s.v := rfl
@[simp] theorem incPC_mem (s : State) : (incPC s).mem = s.mem := rfl
@[simp] theorem incPC_mar (s : State) : (incPC s).mar = s.mar := rfl
@[simp] theorem incPC_mdr (s : State) : (incPC s).mdr = s.mdr := rfl
@[simp] theorem incPC_mmuState (s : State) : (incPC s).mmuState = s.mmuState := rfl
@[simp] theorem incPC_mmuLow (s : State) : (incPC s).mmuLow = s.mmuLow := rfl
@[simp] theorem incPC_step (s : State) : (incPC s).step = s.step := rfl
@[simp] theorem incPC_firstPass (s : State) : (incPC s).firstPass = s.firstPass := rfl
@[simp] theorem incPC_phase2 (s : State) : (incPC s).phase2 = s.phase2 := rfl
@[simp] theorem incPC_writePending (s : State) : (incPC s).writePending = s.writePending := rfl
@[simp] theorem incPC_devices (s : State) : (incPC s).devices = s.devices := rfl
@[simp] theorem incPC_pending (s : State) : (incPC s).pending = s.pending := rfl
@[simp] theorem incPC_queue (s : State) : (incPC s).queue = s.queue := rfl
@[simp] theorem incPC_cycles (s : State) : (incPC s).cycles = s.cycles := rfl
@[simp] theorem incPC_status (s : State) : (incPC s).status = s.status := rfl
@[simp] theorem incPC_faultReason (s : State) : (incPC s).faultReason = s.faultReason := rfl
@[simp] theorem incPC_out (s : State) : (incPC s).out = s.out := rfl

/-! ### `setStep` -/

@[simp] theorem setStep_a (p : PipeStep) (s : State) : (setStep p s).a = s.a := rfl
@[simp] theorem setStep_x (p : PipeStep) (s : State) : (setStep p s).x = s.x := rfl
@[simp] theorem setStep_y (p : PipeStep) (s : State) : (setStep p s).y = s.y := rfl
@[simp] theorem setStep_pc (p : PipeStep) (s : State) : (setStep p s).pc = s.pc := rfl
@[simp] theorem setStep_ir (p : PipeStep) (s : State) : (setStep p s).ir = s.ir := rfl
@[simp] theorem setStep_z (p : PipeStep) (s : State) : (setStep p s).z = s.z := rfl
@[simp] theorem setStep_v (p : PipeStep) (s : State) : (setStep p s).v = s.v := rfl
@[simp] theorem setStep_mem (p : PipeStep) (s : State) : (setStep p s).mem = s.mem := rfl
@[simp] theorem setStep_mar (p : PipeStep) (s : State) : (setStep p s).mar = s.mar := rfl
@[simp] theorem setStep_mdr (p : PipeStep) (s : State) : (setStep p s).mdr = s.mdr := rfl
@[simp] theorem setStep_mmuState (p : PipeStep) (s : State) : (setStep p s).mmuState = s.mmuState := rfl
@[simp] theorem setStep_mmuLow (p : PipeStep) (s : State) : (setStep p s).mmuLow = s.mmuLow := rfl
@[simp] theorem setStep_step (p : PipeStep) (s : State) : (setStep p s).step = p := rfl
@[simp] theorem setStep_firstPass (p : PipeStep) (s : State) : (setStep p s).firstPass = s.firstPass := rfl
@[simp] theorem setStep_phase2 (p : PipeStep) (s : State) : (setStep p s).phase2 = s.phase2 := rfl
@[simp] theorem setStep_writePending (p : PipeStep) (s : State) : (setStep p s).writePending = s.writePending := rfl
@[simp] theorem setStep_devices (p : PipeStep) (s : State) : (setStep p s).devices = s.devices := rfl
@[simp] theorem setStep_pending (p : PipeStep) (s : State) : (setStep p s).pending = s.pending := rfl
@[simp] theorem setStep_queue (p : PipeStep) (s : State) : (setStep p s).queue = s.queue := rfl
@[simp] theorem setStep_cycles (p : PipeStep) (s : State) : (setStep p s).cycles = s.cycles := rfl
@[simp] theorem setStep_status (p : PipeStep) (s : State) : (setStep p s).status = s.status := rfl
@[simp] theorem setStep_faultReason (p : PipeStep) (s : State) : (setStep p s).faultReason = s.faultReason := rfl
@[simp] theorem setStep_out (p : PipeStep) (s : State) : (setStep p s).out = s.out := rfl

/-! ### `countPulse` -/

@[simp] theorem countPulse_a (s : State) : (countPulse s).a = s.a := rfl
@[simp] theorem countPulse_x (s : State) : (countPulse s).x = s.x := rfl
@[simp] theorem countPulse_y (s : State) : (countPulse s).y = s.y := rfl
@[simp] theorem countPulse_pc (s : State) : (countPulse s).pc = s.pc := rfl
@[simp] theorem countPulse_ir (s : State) : (countPulse s).ir = s.ir := rfl
@[simp] theorem countPulse_z (s : State) : (countPulse s).z = s.z := rfl
@[simp] theorem countPulse_v (s : State) : (countPulse s).v = s.v := rfl
@[simp] theorem countPulse_mem (s : State) : (countPulse s).mem = s.mem := rfl
@[simp] theorem countPulse_mar (s : State) : (countPulse s).mar = s.mar := rfl
@[simp] theorem countPulse_mdr (s : State) : (countPulse s).mdr = s.mdr := rfl
@[simp] theorem countPulse_mmuState (s : State) : (countPulse s).mmuState = s.mmuState := rfl
@[simp] theorem countPulse_mmuLow (s : State) : (countPulse s).mmuLow = s.mmuLow := rfl
@[simp] theorem countPulse_step (s : State) : (countPulse s).step = s.step := rfl
@[simp] theorem countPulse_firstPass (s : State) : (countPulse s).firstPass = s.firstPass := rfl
@[simp] theorem countPulse_phase2 (s : State) : (countPulse s).phase2 = s.phase2 := rfl
@[simp] theorem countPulse_writePending (s : State) : (countPulse s).writePending = s.writePending := rfl
@[simp] theorem countPulse_devices (s : State) : (countPulse s).devices = s.devices := rfl
@[simp] theorem countPulse_pending (s : State) : (countPulse s).pending = s.pending := rfl
@[simp] theorem countPulse_queue (s : State) : (countPulse s).queue = s.queue := rfl
@[simp] theorem countPulse_cycles (s : State) : (countPulse s).cycles = s.cycles + 1 := rfl
@[simp] theorem countPulse_status (s : State) : (countPulse s).status = s.status := rfl
@[simp] theorem countPulse_faultReason (s : State) : (countPulse s).faultReason = s.faultReason := rfl
@[simp] theorem countPulse_out (s : State) : (countPulse s).out = s.out := rfl

/-! ### `emit` -/

@[simp] theorem emit_a (e : Event) (s : State) : (emit e s).a = s.a := rfl
@[simp] theorem emit_x (e : Event) (s : State) : (emit e s).x = s.x := rfl
@[simp] theorem emit_y (e : Event) (s : State) : (emit e s).y = s.y := rfl
@[simp] theorem emit_pc (e : Event) (s : State) : (emit e s).pc = s.pc := rfl
@[simp] theorem emit_ir (e : Event) (s : State) : (emit e s).ir = s.ir := rfl
@[simp] theorem emit_z (e : Event) (s : State) : (emit e s).z = s.z := rfl
@[simp] theorem emit_v (e : Event) (s : State) : (emit e s).v = s.v := rfl
@[simp] theorem emit_mem (e : Event) (s : State) : (emit e s).mem = s.mem := rfl
@[simp] theorem emit_mar (e : Event) (s : State) : (emit e s).mar = s.mar := rfl
@[simp] theorem emit_mdr (e : Event) (s : State) : (emit e s).mdr = s.mdr := rfl
@[simp] theorem emit_mmuState (e : Event) (s : State) : (emit e s).mmuState = s.mmuState := rfl
@[simp] theorem emit_mmuLow (e : Event) (s : State) : (emit e s).mmuLow = s.mmuLow := rfl
@[simp] theorem emit_step (e : Event) (s : State) : (emit e s).step = s.step := rfl
@[simp] theorem emit_firstPass (e : Event) (s : State) : (emit e s).firstPass = s.firstPass := rfl
@[simp] theorem emit_phase2 (e : Event) (s : State) : (emit e s).phase2 = s.phase2 := rfl
@[simp] theorem emit_writePending (e : Event) (s : State) : (emit e s).writePending = s.writePending := rfl
@[simp] theorem emit_devices (e : Event) (s : State) : (emit e s).devices = s.devices := rfl
@[simp] theorem emit_pending (e : Event) (s : State) : (emit e s).pending = s.pending := rfl
@[simp] theorem emit_queue (e : Event) (s : State) : (emit e s).queue = s.queue := rfl
@[simp] theorem emit_cycles (e : Event) (s : State) : (emit e s).cycles = s.cycles := rfl
@[simp] theorem emit_status (e : Event) (s : State) : (emit e s).status = s.status := rfl
@[simp] theorem emit_faultReason (e : Event) (s : State) : (emit e s).faultReason = s.faultReason := rfl
@[simp] theorem emit_out (e : Event) (s : State) : (emit e s).out = s.out ++ [e] := rfl

/-! ### `halt` -/

@[simp] theorem halt_a (s : State) : (halt s).a = s.a := rfl
@[simp] theorem halt_x (s : State) : (halt s).x = s.x := rfl
@[simp] theorem halt_y (s : State) : (halt s).y = s.y := rfl
@[simp] theorem halt_pc (s : State) : (halt s).pc = s.pc := rfl
@[simp] theorem halt_ir (s : State) : (halt s).ir = s.ir := rfl
@[simp] theorem halt_z (s : State) : (halt s).z = s.z := rfl
@[simp] theorem halt_v (s : State) : (halt s).v = s.v := rfl
@[simp] theorem halt_mem (s : State) : (halt s).mem = s.mem := rfl
@[simp] theorem halt_mar (s : State) : (halt s).mar = s.mar := rfl
@[simp] theorem halt_mdr (s : State) : (halt s).mdr = s.mdr := rfl
@[simp] theorem halt_mmuState (s : State) : (halt s).mmuState = s.mmuState := rfl
@[simp] theorem halt_mmuLow (s : State) : (halt s).mmuLow = s.mmuLow := rfl
@[simp] theorem halt_step (s : State) : (halt s).step = s.step := rfl
@[simp] theorem halt_firstPass (s : State) : (halt s).firstPass = s.firstPass := rfl
@[simp] theorem halt_phase2 (s : State) : (halt s).phase2 = s.phase2 := rfl
@[simp] theorem halt_writePending (s : State) : (halt s).writePending = s.writePending := rfl
@[simp] theorem halt_devices (s : State) : (halt s).devices = s.devices := rfl
@[simp] theorem halt_pending (s : State) : (halt s).pending = s.pending := rfl
@[simp] theorem halt_queue (s : State) : (halt s).queue = s.queue := rfl
@[simp] theorem halt_cycles (s : State) : (halt s).cycles = s.cycles := rfl
@[simp] theorem halt_status (s : State) : (halt s).status = .halted := rfl
@[simp] theorem halt_faultReason (s : State) : (halt s).faultReason = s.faultReason := rfl
@[simp] theorem halt_out (s : State) : (halt s).out = s.out := rfl

/-! ### `raiseFault` -/

@[simp] theorem raiseFault_a (c : Condition) (s : State) : (raiseFault c s).a = s.a := rfl
@[simp] theorem raiseFault_x (c : Condition) (s : State) : (raiseFault c s).x = s.x := rfl
@[simp] theorem raiseFault_y (c : Condition) (s : State) : (raiseFault c s).y = s.y := rfl
@[simp] theorem raiseFault_pc (c : Condition) (s : State) : (raiseFault c s).pc = s.pc := rfl
@[simp] theorem raiseFault_ir (c : Condition) (s : State) : (raiseFault c s).ir = s.ir := rfl
@[simp] theorem raiseFault_z (c : Condition) (s : State) : (raiseFault c s).z = s.z := rfl
@[simp] theorem raiseFault_v (c : Condition) (s : State) : (raiseFault c s).v = s.v := rfl
@[simp] theorem raiseFault_mem (c : Condition) (s : State) : (raiseFault c s).mem = s.mem := rfl
@[simp] theorem raiseFault_mar (c : Condition) (s : State) : (raiseFault c s).mar = s.mar := rfl
@[simp] theorem raiseFault_mdr (c : Condition) (s : State) : (raiseFault c s).mdr = s.mdr := rfl
@[simp] theorem raiseFault_mmuState (c : Condition) (s : State) : (raiseFault c s).mmuState = s.mmuState := rfl
@[simp] theorem raiseFault_mmuLow (c : Condition) (s : State) : (raiseFault c s).mmuLow = s.mmuLow := rfl
@[simp] theorem raiseFault_step (c : Condition) (s : State) : (raiseFault c s).step = s.step := rfl
@[simp] theorem raiseFault_firstPass (c : Condition) (s : State) : (raiseFault c s).firstPass = s.firstPass := rfl
@[simp] theorem raiseFault_phase2 (c : Condition) (s : State) : (raiseFault c s).phase2 = s.phase2 := rfl
@[simp] theorem raiseFault_writePending (c : Condition) (s : State) : (raiseFault c s).writePending = s.writePending := rfl
@[simp] theorem raiseFault_devices (c : Condition) (s : State) : (raiseFault c s).devices = s.devices := rfl
@[simp] theorem raiseFault_pending (c : Condition) (s : State) : (raiseFault c s).pending = s.pending := rfl
@[simp] theorem raiseFault_queue (c : Condition) (s : State) : (raiseFault c s).queue = s.queue := rfl
@[simp] theorem raiseFault_cycles (c : Condition) (s : State) : (raiseFault c s).cycles = s.cycles := rfl
@[simp] theorem raiseFault_status (c : Condition) (s : State) : (raiseFault c s).status = .faulted := rfl
@[simp] theorem raiseFault_faultReason (c : Condition) (s : State) : (raiseFault c s).faultReason = some c := rfl
@[simp] theorem raiseFault_out (c : Condition) (s : State) : (raiseFault c s).out = s.out := rfl

/-! ### `acceptInterrupt` -/

@[simp] theorem acceptInterrupt_a (t : Token) (p : Int) (s : State) : (acceptInterrupt t p s).a = s.a := rfl
@[simp] theorem acceptInterrupt_x (t : Token) (p : Int) (s : State) : (acceptInterrupt t p s).x = s.x := rfl
@[simp] theorem acceptInterrupt_y (t : Token) (p : Int) (s : State) : (acceptInterrupt t p s).y = s.y := rfl
@[simp] theorem acceptInterrupt_pc (t : Token) (p : Int) (s : State) : (acceptInterrupt t p s).pc = s.pc := rfl
@[simp] theorem acceptInterrupt_ir (t : Token) (p : Int) (s : State) : (acceptInterrupt t p s).ir = s.ir := rfl
@[simp] theorem acceptInterrupt_z (t : Token) (p : Int) (s : State) : (acceptInterrupt t p s).z = s.z := rfl
@[simp] theorem acceptInterrupt_v (t : Token) (p : Int) (s : State) : (acceptInterrupt t p s).v = s.v := rfl
@[simp] theorem acceptInterrupt_mem (t : Token) (p : Int) (s : State) : (acceptInterrupt t p s).mem = s.mem := rfl
@[simp] theorem acceptInterrupt_mar (t : Token) (p : Int) (s : State) : (acceptInterrupt t p s).mar = s.mar := rfl
@[simp] theorem acceptInterrupt_mdr (t : Token) (p : Int) (s : State) : (acceptInterrupt t p s).mdr = s.mdr := rfl
@[simp] theorem acceptInterrupt_mmuState (t : Token) (p : Int) (s : State) : (acceptInterrupt t p s).mmuState = s.mmuState := rfl
@[simp] theorem acceptInterrupt_mmuLow (t : Token) (p : Int) (s : State) : (acceptInterrupt t p s).mmuLow = s.mmuLow := rfl
@[simp] theorem acceptInterrupt_step (t : Token) (p : Int) (s : State) : (acceptInterrupt t p s).step = s.step := rfl
@[simp] theorem acceptInterrupt_firstPass (t : Token) (p : Int) (s : State) : (acceptInterrupt t p s).firstPass = s.firstPass := rfl
@[simp] theorem acceptInterrupt_phase2 (t : Token) (p : Int) (s : State) : (acceptInterrupt t p s).phase2 = s.phase2 := rfl
@[simp] theorem acceptInterrupt_writePending (t : Token) (p : Int) (s : State) : (acceptInterrupt t p s).writePending = s.writePending := rfl
@[simp] theorem acceptInterrupt_devices (t : Token) (p : Int) (s : State) : (acceptInterrupt t p s).devices = s.devices := rfl
@[simp] theorem acceptInterrupt_pending (t : Token) (p : Int) (s : State) : (acceptInterrupt t p s).pending = true := rfl
@[simp] theorem acceptInterrupt_queue (t : Token) (p : Int) (s : State) : (acceptInterrupt t p s).queue = enqueue t p s.queue := rfl
@[simp] theorem acceptInterrupt_cycles (t : Token) (p : Int) (s : State) : (acceptInterrupt t p s).cycles = s.cycles := rfl
@[simp] theorem acceptInterrupt_status (t : Token) (p : Int) (s : State) : (acceptInterrupt t p s).status = s.status := rfl
@[simp] theorem acceptInterrupt_faultReason (t : Token) (p : Int) (s : State) : (acceptInterrupt t p s).faultReason = s.faultReason := rfl
@[simp] theorem acceptInterrupt_out (t : Token) (p : Int) (s : State) : (acceptInterrupt t p s).out = s.out := rfl

/-! ### The pass-throughs of the MMU (20_memory.md R57) -/

@[simp] theorem changeMAR_eq (n : Addr) (s : State) : changeMAR n s = setMAR n s := rfl
@[simp] theorem changeMDR_eq (d : Byte) (s : State) : changeMDR d s = setMDR d s := rfl
@[simp] theorem mmuWrite_eq (s : State) : mmuWrite s = memWrite s := rfl
@[simp] theorem getMAR_eq (s : State) : getMAR s = s.mar := rfl
@[simp] theorem getMDR_eq (s : State) : getMDR s = s.mdr := rfl
@[simp] theorem mmuGetMAR_eq (s : State) : mmuGetMAR s = s.mar := rfl
@[simp] theorem mmuGetMDR_eq (s : State) : mmuGetMDR s = s.mdr := rfl
@[simp] theorem memoryPulse_eq (s : State) : memoryPulse s = s := rfl

/-! ### Chaining results -/

@[simp] theorem andThen_next (s : State) (f : State → Result) : andThen (.next s) f = f s := rfl
@[simp] theorem andThen_fault (r : Fault) (f : State → Result) : andThen (.fault r) f = .fault r := rfl
@[simp] theorem andThen_refused (r : Refusal) (f : State → Result) : andThen (.refused r) f = .refused r := rfl

/-- A chain that answers a next state went through one. -/
theorem andThen_eq_next {o : Result} {f : State → Result} {t : State} (h : andThen o f = .next t) :
    ∃ u, o = .next u ∧ f u = .next t := by
  cases o with
  | next u => exact ⟨u, rfl, h⟩
  | fault r => simp at h
  | refused r => simp at h

theorem andThen_assoc (o : Result) (f g : State → Result) :
    andThen (andThen o f) g = andThen o (fun s => andThen (f s) g) := by
  cases o <;> rfl

end Sys2Proof.Machine
end

