-- ==== Sys2Proof/Laws/Arithmetic.lean ====
section
/-! SUPPORT. The flag and operand computations as arithmetic on bit vectors. -/

namespace Sys2Proof.Machine

/-- `sext_8` is the two's-complement reading (00_scope.md R7). -/
theorem sext8_eq (b : Byte) : sext8 b = b.toInt := by
  unfold sext8
  rw [BitVec.toInt_eq_toNat_cond]
  split <;> split <;> omega

/-- ADC's byte is the sum modulo 256, and its V says that the exact signed sum does not fit (42_arithmetic.md R170). -/
theorem adc_spec (a m : Byte) : adcValue a m = a + m ∧ adcOverflow a m = decide
    (a.toInt + m.toInt < -128 ∨ 127 < a.toInt + m.toInt) := by
  have e : ∀ n : Int, u8 n = BitVec.ofInt 8 n := fun _ => rfl
  have ha := a.isLt
  have hm := m.isLt
  have h1 := sext8_eq a
  have h2 := sext8_eq m
  constructor
  · unfold adcValue adcWrap adcSum
    rw [h1, h2, e]
    have key : BitVec.ofInt 8 (a.toInt + m.toInt) = a + m := by
      rw [BitVec.ofInt_add]; simp
    have hp : ∀ n : Int, BitVec.ofInt 8 (n + 256) = BitVec.ofInt 8 n := by
      intro n; apply BitVec.eq_of_toInt_eq; simp [BitVec.toInt_ofInt, Int.bmod_def]
    have hn : ∀ n : Int, BitVec.ofInt 8 (n - 256) = BitVec.ofInt 8 n := by
      intro n; apply BitVec.eq_of_toInt_eq; simp [BitVec.toInt_ofInt, Int.bmod_def]
    split
    · rw [hp, key]
    · split
      · rw [hn, key]
      · exact key
  · unfold adcOverflow adcWrap adcSum
    rw [h1, h2]
    split
    · simp; omega
    · split <;> simp <;> omega

/-- The exact signed sum does not fit exactly when two bytes of one sign give a byte of the other. -/
theorem overflow_eq_msb (a m : Byte) : decide (a.toInt + m.toInt < -128 ∨ 127 < a.toInt + m.toInt) =
    ((a.msb == m.msb) && ((a + m).msb != a.msb)) := by
  have ha := a.isLt
  have hm := m.isLt
  have hs := (a+m).isLt
  simp only [BitVec.toInt_eq_toNat_cond, BitVec.msb_eq_decide, BitVec.toNat_add]
  rcases Nat.lt_or_ge a.toNat 128 with h1 | h1 <;> rcases Nat.lt_or_ge m.toNat 128 with h2 | h2 <;>
   rcases Nat.lt_or_ge ((a.toNat + m.toNat) % 256) 128 with h3 | h3 <;>
   simp [h1, h2, h3, Nat.not_le.2, Nat.not_lt.2, show ∀ x : Nat, (2 * x < 256) =
       (x < 128) from fun x => by simp; omega] <;> omega

/-- INC's byte is one more modulo 256, and it wraps exactly from 0xFF (42_arithmetic.md R173). -/
theorem incValue_spec (a : Byte) : incValue a = a + 1#8 ∧ (incWraps a = true ↔ a = 0xFF#8) := by
  have ha := a.isLt
  have hw : incWraps a = true ↔ a = 0xFF#8 := by
    unfold incWraps
    rw [beq_iff_eq, BitVec.toNat_eq]
    simp
  refine ⟨?_, hw⟩
  unfold incValue
  split
  · rename_i h; rw [hw.1 h]; rfl
  · apply BitVec.eq_of_toNat_eq
    simp [u8]
    omega

theorem incOverflow_eq (n : IncVNoWrap) (m : Byte) (v : Bool) : incOverflow n (m) v =
    (if m = 0xFF#8 then true else (if n = .keep then v else false)) := by
  unfold incOverflow
  simp only [(incValue_spec m).2]
  cases n <;> simp

/-- The branch target is PC plus the sign-extended offset (43_compare_branch.md R191). -/
theorem branchTarget_eq (pc : Addr) (b : Byte) : branchTarget pc b = pc + b.signExtend 16 := by
  unfold branchTarget u16
  rw [sext8_eq, BitVec.ofInt_add]
  simp [BitVec.signExtend]

end Sys2Proof.Machine
end

