-- ==== Sys2Proof/Laws/Decode.lean ====
section
/-! SUPPORT. The laws of the decoder's tables: bytes and addresses, classes, and the opcode map. -/

namespace Sys2Proof

/-- `{h, l}` equals `h * 256 + l` (00_scope.md R7). -/
theorem addrOf_toNat (hi lo : Byte) : (addrOf hi lo).toNat = lo.toNat + 256 * hi.toNat := by
  have h := lo.isLt
  show (BitVec.append hi lo).toNat = _
  have := BitVec.toNat_append hi lo
  rw [← Nat.shiftLeft_add_eq_or_of_lt (by omega), Nat.shiftLeft_eq] at this
  exact this.trans (by omega)

theorem loByte_toNat (a : Addr) : (loByte a).toNat = a.toNat % 256 := by
  simp [loByte]

theorem hiByte_toNat (a : Addr) : (hiByte a).toNat = a.toNat / 256 := by
  have := a.isLt
  simp [hiByte, Nat.shiftRight_eq_div_pow]
  omega

@[simp] theorem loByte_addrOf (hi lo : Byte) : loByte (addrOf hi lo) = lo := by
  apply BitVec.eq_of_toNat_eq
  have := lo.isLt
  rw [loByte_toNat, addrOf_toNat]
  omega

@[simp] theorem hiByte_addrOf (hi lo : Byte) : hiByte (addrOf hi lo) = hi := by
  apply BitVec.eq_of_toNat_eq
  have := lo.isLt
  rw [hiByte_toNat, addrOf_toNat]
  omega

@[simp] theorem addrOf_hiByte_loByte (a : Addr) : addrOf (hiByte a) (loByte a) = a := by
  apply BitVec.eq_of_toNat_eq
  rw [addrOf_toNat, loByte_toNat, hiByte_toNat]
  omega

/-- The opcode map has no instruction for an undefined opcode (30_encoding.md R86). -/
theorem instrOf_undefined {op : Byte} (x b1 : Byte) (ea : Addr) (h : op ∉ definedOpcodes) :
    instrOf op x b1 ea = none := by
  simp only [definedOpcodes, zeroOperandSet, oneOperandSet, twoOperandSet, List.cons_append, List.nil_append,
    List.mem_cons, List.not_mem_nil, or_false, not_or] at h
  obtain ⟨h1, h2, h3, h4, h5, h6, h7, h8, h9, h10, h11, h12, h13, h14, h15, h16, h17, h18⟩ := h
  unfold instrOf
  rw [if_neg ‹¬op = 0xA9#8›, if_neg ‹¬op = 0xAD#8›, if_neg ‹¬op = 0x8A#8›, if_neg ‹¬op = 0x98#8›, if_neg ‹¬op = 0xA2#8›,
      if_neg ‹¬op = 0xAE#8›, if_neg ‹¬op = 0xAA#8›, if_neg ‹¬op = 0xA0#8›, if_neg ‹¬op = 0xAC#8›, if_neg ‹¬op = 0xA8#8›,
      if_neg ‹¬op = 0x8D#8›, if_neg ‹¬op = 0x6D#8›, if_neg ‹¬op = 0xEE#8›, if_neg ‹¬op = 0xEC#8›, if_neg ‹¬op = 0xD0#8›,
      if_neg ‹¬op = 0xFF#8›, if_neg ‹¬op = 0x00#8›, if_neg ‹¬op = 0xEA#8›]

/-- The opcode map has an instruction for every defined opcode, with that opcode, in the form that X selects (R85). -/
theorem instrOf_defined {op : Byte} (x b1 : Byte) (ea : Addr) (h : op ∈ definedOpcodes) :
    ∃ i, instrOf op x b1 ea = some i ∧ opcodeOf i = op ∧ i.wellFormed x = true := by
  simp only [definedOpcodes, zeroOperandSet, oneOperandSet, twoOperandSet, List.cons_append, List.nil_append,
    List.mem_cons, List.not_mem_nil, or_false] at h
  rcases h with rfl | rfl | rfl | rfl | rfl | rfl | rfl | rfl | rfl | rfl | rfl | rfl | rfl | rfl | rfl | rfl | rfl | rfl
  case inr.inr.inr.inr.inr.inr.inr.inr.inr.inr.inr.inr.inr.inr.inr.inr.inr =>
    cases hx : sysIsImplied x
    · exact ⟨.sysAbs ea, by simp [instrOf, hx], rfl, by simp [Instr.wellFormed, hx]⟩
    · exact ⟨.sysImplied, by simp [instrOf, hx], rfl, by simp [Instr.wellFormed, hx]⟩
  all_goals exact ⟨_, rfl, rfl, rfl⟩

/-- The opcode map has an instruction exactly for the defined opcodes (R85, R86). -/
theorem instrOf_eq_none_iff (op x b1 : Byte) (ea : Addr) :
    instrOf op x b1 ea = none ↔ op ∉ definedOpcodes := by
  refine ⟨fun h hd => ?_, instrOf_undefined x b1 ea⟩
  obtain ⟨i, hi, -⟩ := instrOf_defined x b1 ea hd
  rw [h] at hi
  cases hi

/-- An instruction of the opcode map has the opcode it was looked up under, and the form that X selects. -/
theorem instrOf_eq_some {op x b1 : Byte} {ea : Addr} {i : Instr} (h : instrOf op x b1 ea = some i) :
    opcodeOf i = op ∧ i.wellFormed x = true := by
  by_cases hd : op ∈ definedOpcodes
  · obtain ⟨j, hj, hop, hwf⟩ := instrOf_defined x b1 ea hd
    rw [h] at hj
    cases hj
    exact ⟨hop, hwf⟩
  · rw [instrOf_undefined x b1 ea hd] at h
    cases h

/-- A successful lookup is the opcode map's instruction and leaves the rest of the bytes. -/
theorem instrOrUndefined_ok {op x b1 ea rest i r} (h : instrOrUndefined op x b1 ea rest = .ok (i, r)) :
   instrOf op x b1 ea = some i ∧ r = rest := by
  unfold instrOrUndefined at h
  split at h <;> simp_all

/-- An instruction looked up under a one-operand opcode has that operand byte (R84). -/
theorem operandsOf_instrOf_one {op x b1 ea i} (h : instrOf op x b1 ea = some i) (ho : op ∈ oneOperandSet) :
    operandsOf i = [b1] := by
  simp only [oneOperandSet, List.mem_cons, List.not_mem_nil, or_false] at ho
  rcases ho with rfl | rfl | rfl | rfl <;> (cases h; rfl)

/-- An instruction looked up under a two-operand opcode has the two bytes of its address (R84). -/
theorem operandsOf_instrOf_two {op x b1 ea i} (h : instrOf op x b1 ea = some i) (ho : op ∈ twoOperandSet)
    (hx : op = 0xFF#8 → sysIsImplied x = false) : operandsOf i = [loByte ea, hiByte ea] := by
  simp only [twoOperandSet, List.mem_cons, List.not_mem_nil, or_false] at ho
  rcases ho with rfl | rfl | rfl | rfl | rfl | rfl | rfl | rfl
  case inr.inr.inr.inr.inr.inr.inr =>
    simp [instrOf, hx rfl] at h
    subst h; rfl
  all_goals (cases h; rfl)

/-- An instruction looked up under a zero-operand opcode, or 0xFF with X in {1, 2}, has no operand (R82, R84). -/
theorem operandsOf_instrOf_zero {op x b1 ea i} (h : instrOf op x b1 ea = some i)
    (ho : op ∈ zeroOperandSet ∨ (op = 0xFF#8 ∧ sysIsImplied x = true)) : operandsOf i = [] := by
  rcases ho with ho | ⟨rfl, hx⟩
  · simp only [zeroOperandSet, List.mem_cons, List.not_mem_nil, or_false] at ho
    rcases ho with rfl | rfl | rfl | rfl | rfl | rfl <;> (cases h; rfl)
  · simp [instrOf, hx] at h; subst h; rfl

/-- The four classes an opcode can be found in, and what each says of it (40_pipeline.md R103). -/
theorem classify_cases (op x : Byte) :
    (classify op x = .implied ∧ op = 0xFF#8 ∧ sysIsImplied x = true) ∨
    (classify op x = .one ∧ op ∈ oneOperandSet) ∨
    (classify op x = .two ∧ op ∈ twoOperandSet ∧ (op = 0xFF#8 → sysIsImplied x = false)) ∨
    (classify op x = .zero ∧ op ∉ oneOperandSet ∧ op ∉ twoOperandSet) := by
  unfold classify
  split
  · exact .inl ⟨rfl, ‹_›⟩
  · split
    · exact .inr (.inl ⟨rfl, ‹_›⟩)
    · split
      · exact .inr (.inr (.inl ⟨rfl, ‹_›, fun h => by simp_all⟩))
      · exact .inr (.inr (.inr ⟨rfl, ‹_›, ‹_›⟩))

theorem classify_one {op x} (h : op ∈ oneOperandSet) : classify op x = .one := by
  have : op ≠ 0xFF#8 := by rintro rfl; revert h; decide
  simp [classify, this, h]

theorem classify_two {op x} (h : op ∈ twoOperandSet) (hx : op = 0xFF#8 → sysIsImplied x = false) : classify op x = .two := by
  rcases classify_cases op x with ⟨hc, ho, hx'⟩ | ⟨hc, ho⟩ | ⟨hc, ho, hx⟩ | ⟨hc, ho, hx⟩
  · simp_all
  · exfalso
    simp only [oneOperandSet, List.mem_cons, List.not_mem_nil, or_false] at ho
    rcases ho with rfl | rfl | rfl | rfl <;> exact absurd h (by decide)
  · exact hc
  · exact absurd h hx

/-- An undefined opcode is a zero-operand opcode (R86). -/
theorem classify_undefined {op x : Byte} (h : op ∉ definedOpcodes) : classify op x = .zero := by
  rcases classify_cases op x with ⟨hc, ho, hx⟩ | ⟨hc, ho⟩ | ⟨hc, ho, hx⟩ | ⟨hc, ho, hx⟩
  · exact absurd (ho ▸ (by decide)) h
  · exact absurd (by simp [definedOpcodes, ho]) h
  · exact absurd (by simp [definedOpcodes, ho]) h
  · exact hc

/-- The opcode map under an instruction's own opcode, form and operands is that instruction. -/
theorem instrOf_opcodeOf {i : Instr} {x b1 : Byte} {ea : Addr} (h : i.wellFormed x = true)
   (h1 : ∀ b, operandsOf i = [b] → b1 = b) (h2 : ∀ lo hi, operandsOf i = [lo, hi] → ea = addrOf hi lo) :
   instrOf (opcodeOf i) x b1 ea = some i := by
  cases i <;> simp [operandsOf] at h1 h2 <;> simp_all [instrOf, opcodeOf, Instr.wellFormed]

/-- The class of a well-formed instruction's opcode agrees with its number of operand bytes. -/
theorem classify_opcodeOf {i : Instr} {x : Byte} (h : i.wellFormed x = true) :
   (operandsOf i = [] ∧ (classify (opcodeOf i) x = .zero ∨ classify (opcodeOf i) x = .implied)) ∨
   (∃ b, operandsOf i = [b] ∧ classify (opcodeOf i) x = .one) ∨
   (∃ lo hi, operandsOf i = [lo, hi] ∧ classify (opcodeOf i) x = .two) := by
  cases i <;> simp_all [operandsOf, classify, opcodeOf, Instr.wellFormed, oneOperandSet, twoOperandSet]

end Sys2Proof
end

