-- ==== Sys2Proof/Laws/Operations.lean ====
section
/-! SUPPORT. One law for each shared operation of the pipeline: the MMU's read, a pulse by its step, fetch, decode, the choice of
the next step and the interrupt check. -/

namespace Sys2Proof.Machine

/-- `MMU.read()` while idle is `Mem.read()` (20_memory.md R55). -/
theorem mmuRead_idle {s : State} (h : s.mmuState = .idle) : mmuRead s = memRead s := by
  simp [mmuRead, mmuAdvance, h]

theorem mmuRead_low {s : State} (h : s.mmuState = .lowPending) :
   mmuRead s = { s with mdr := s.mem.read s.mar, mmuLow := s.mem.read s.mar, mmuState := .highPending } := by
  unfold mmuRead mmuAdvance; simp only [memRead_mmuState, h]; rfl

theorem mmuRead_high {s : State} (h : s.mmuState = .highPending) :
   mmuRead s = { s with
       mar := addrOf (s.mem.read s.mar) s.mmuLow, mdr := s.mem.read (addrOf (s.mem.read s.mar) s.mmuLow),
       mmuState := .idle } := by
  unfold mmuRead mmuAdvance; simp only [memRead_mmuState, h]; rfl

/-- The memory's handler does nothing, so a tick is the CPU's pulse (60_exceptions.md R263). -/
theorem tick_eq (s) : tick s = pulse s := by
  unfold tick bootListeners addClockListener
  simp only [List.nil_append, List.cons_append, notifyAll, listenerPulse, memoryPulse_eq, andThen_next]
  cases pulse s <;> rfl

theorem pulse_running {s : State} (h : s.status = .running) : pulse s = stepWork (countPulse s) := if_pos h

theorem pulse_ended {s : State} (h : s.status ≠ .running) : pulse s = .next s := if_neg h

@[simp] theorem pulses_zero (s : State) : pulses 0 s = .next s := rfl

@[simp] theorem pulses_succ (n : Nat) (s : State) : pulses (n + 1) s = andThen (pulse s) (pulses n) := rfl

theorem pulse_fetch {s : State} (hr : s.status = .running) (hs : s.step = .fetch) : pulse s = .next
    (doFetch (countPulse s)) := by
  rw [pulse_running hr, stepWork, countPulse_step, hs]

theorem pulse_decode {s : State} (hr : s.status = .running) (hs : s.step = .decode) : pulse s = doDecode (countPulse s) := by
  rw [pulse_running hr, stepWork, countPulse_step, hs]

theorem pulse_execute {s : State} (hr : s.status = .running) (hs : s.step = .execute) : pulse s = doExecute (countPulse s) := by
  rw [pulse_running hr, stepWork, countPulse_step, hs]

theorem pulse_writeback {s : State} (hr : s.status = .running) (hs : s.step = .writeback) : pulse s = .next
    (doWriteback (countPulse s)) := by
  rw [pulse_running hr, stepWork, countPulse_step, hs]

theorem pulse_check {s : State} (hr : s.status = .running) (hs : s.step = .interruptCheck) : pulse s = doInterruptCheck
    (countPulse s) := by
  rw [pulse_running hr, stepWork, countPulse_step, hs]

/-- Everything a fetch does with the MMU idle (40_pipeline.md R102). -/
theorem doFetch_idle {s : State} (h : s.mmuState = .idle) :
  doFetch s = { s with mar := s.pc, mdr := s.mem.read s.pc, ir := s.mem.read s.pc, pc := s.pc + 1#16, step := .decode } := by
  unfold doFetch
  rw [changeMAR_eq, mmuRead_idle (by exact h)]
  rfl

theorem decodeOne_idle {s : State} (h : s.mmuState = .idle) :
  decodeOne s = { s with mar := s.pc, mdr := s.mem.read s.pc, pc := s.pc + 1#16, step := .execute } := by
  unfold decodeOne
  rw [changeMAR_eq, mmuRead_idle (by exact h)]
  rfl

theorem decodeTwoFirst_eq (s : State) :
  decodeTwoFirst s = { s with
      mar := s.pc, mdr := s.mem.read s.pc, mmuLow := s.mem.read s.pc, mmuState := .highPending, pc := s.pc + 1#16,
      firstPass := true } := by
  unfold decodeTwoFirst
  rw [changeMAR_eq, mmuRead_low rfl]
  rfl

theorem decodeTwoSecond_high {s : State} (h : s.mmuState = .highPending) :
  decodeTwoSecond s = { s with
      mar := addrOf (s.mem.read s.pc) s.mmuLow, mdr := s.mem.read (addrOf (s.mem.read s.pc) s.mmuLow),
      mmuState := .idle, pc := s.pc + 1#16, firstPass := false, step := .execute } := by
  unfold decodeTwoSecond
  rw [changeMAR_eq, mmuRead_high (by exact h)]
  rfl

theorem doDecode_one {s : State} (h : classify s.ir s.x = .one) : doDecode s = .next (decodeOne s) := by
  rw [doDecode, h]

theorem doDecode_two {s : State} (h : classify s.ir s.x = .two) : doDecode s = .next
    (if s.firstPass then decodeTwoSecond s else decodeTwoFirst s) := by
  rw [doDecode, h]

theorem doDecode_zero {s : State} (h : classify s.ir s.x = .zero ∨ classify s.ir s.x = .implied) :
    doDecode s = doExecute s := by
  rcases h with h | h <;> rw [doDecode, h]

/-- An execute pulse rebuilds the instruction whose opcode and operands stand in IR, MDR and MAR (40_pipeline.md R109). -/
theorem instrAtExecute_of {s : State} {i : Instr} (h : s.AtExecute i) : instrAtExecute s = some i := by
  unfold instrAtExecute
  rw [h.opcode]
  have := h.operands
  unfold State.SeesOperands at this
  refine instrOf_opcodeOf h.form (fun b hb => ?_) (fun lo hi hb => ?_)
  · rw [hb] at this; exact this.2
  · rw [hb] at this; exact this.1

/-- The operand byte of format F1 stands in MDR. -/
theorem sees_one {i : Instr} {s : State} {b} (h : s.AtExecute i) (ho : operandsOf i = [b]) : s.mdr = b := by
  have := h.operands; unfold State.SeesOperands at this; rw [ho] at this; exact this.2

/-- The operand address of format F2 stands in MAR and its datum in MDR. -/
theorem sees_two {i : Instr} {s : State} {ea} (h : s.AtExecute i) (ho : operandsOf i = [loByte ea, hiByte ea]) :
    s.mar = ea ∧ s.mdr = s.mem.read ea := by
  have := h.operands; unfold State.SeesOperands at this; rw [ho] at this; simpa using this

/-- Everything an interrupt check can do (40_pipeline.md R112). -/
theorem doInterruptCheck_cases (v : State) : (∃ t, doInterruptCheck v = .next t ∧ t.step = .fetch ∧
     t = { v with step := .fetch, queue := t.queue, pending := t.pending, out := t.out }) ∨
         (doInterruptCheck v = .refused .emptyQueue ∧ v.pending = true ∧ v.queue = []) := by
  unfold doInterruptCheck
  cases hp : v.pending
  · exact .inl ⟨_, rfl, rfl, by simp [setStep, hp]⟩
  · simp only [supplyInterrupt]
    cases hq : v.queue with
    | nil => exact .inr ⟨rfl, by simp, rfl⟩
    | cons e r => exact .inl ⟨_, rfl, rfl, rfl⟩

end Sys2Proof.Machine
end

