-- ==== Sys2Proof/Laws/Strings.lean ====
section
/-! SUPPORT. The string loop of SYS (44_system.md R215): one turn by the byte it reads, a whole string, and the hang. -/

namespace Sys2Proof.Machine

theorem printLoop_printable {f a s} (hi : s.mmuState = .idle) (h : isPrintable (s.mem.read a)) :
   printLoop (f+1) a s = printLoop f (a + 1#16) { s with
       mar := a, mdr := s.mem.read a, out := s.out ++ [.outChar (s.mem.read a)] } := by
  rw [printLoop]
  rw [changeMAR_eq, mmuRead_idle (by exact hi)]
  have hr : (memRead (setMAR a s)).mdr = s.mem.read a := rfl
  rw [if_neg (hr ▸ h.1), if_neg (by rw [hr]; have := h.2; omega)]
  rfl

theorem printLoop_zero {f a s} (hi : s.mmuState = .idle) (h : s.mem.read a = 0#8) :
   printLoop (f+1) a s = .next { s with mar := a, mdr := 0#8 } := by
  rw [printLoop]
  rw [changeMAR_eq, mmuRead_idle (by exact hi)]
  have hr : (memRead (setMAR a s)).mdr = s.mem.read a := rfl
  rw [if_pos (hr.trans h)]
  simp [memRead, setMAR, h]

theorem printLoop_bad {f a s} (hi : s.mmuState = .idle) (h : 0x7F < (s.mem.read a).toNat) :
   printLoop (f+1) a s = .next (raiseFault (.codecInvalidByte (s.mem.read a)) { s with mar := a, mdr := s.mem.read a }) := by
  rw [printLoop]
  rw [changeMAR_eq, mmuRead_idle (by exact hi)]
  have hr : (memRead (setMAR a s)).mdr = s.mem.read a := rfl
  rw [if_neg (by rw [hr]; intro h0; rw [h0] at h; simp at h), if_pos (by rw [hr]; exact h)]
  rfl

/-- The loop over a run of printable bytes. -/
theorem printLoop_prefix (str : List Byte) : ∀ {f a s}, s.mmuState = .idle → (∀ b ∈ str, isPrintable b) →
    holdsFrom s.mem a str → str ≠ [] →
    printLoop (str.length + f) a s = printLoop f (a + BitVec.ofNat 16 str.length) { s with
      mar := a + BitVec.ofNat 16 (str.length - 1), mdr := s.mem.read (a + BitVec.ofNat 16 (str.length - 1))
      out := s.out ++ str.map .outChar } := by
  induction str with
  | nil => intro f a s _ _ _ h; exact absurd rfl h
  | cons b rest ih =>
    intro f a s hi hp hh _
    obtain ⟨hb, hr⟩ := hh
    have : (b :: rest).length + f = (rest.length + f) + 1 := by simp; omega
    rw [this, printLoop_printable hi (by rw [hb]; exact hp b (by simp))]
    cases rest with
    | nil => simp [hb]
    | cons c tl =>
      rw [ih (by exact hi) (fun b' hb' => hp b' (by simp [hb'])) (by exact hr) (by simp)]
      simp [hb, BitVec.add_assoc, ← BitVec.ofNat_add, Nat.add_comm]

theorem holdsFrom_append {m a l l'} : holdsFrom m a (l ++ l') ↔ holdsFrom m a l ∧ holdsFrom m
    (a + BitVec.ofNat 16 l.length) l' := by
  induction l generalizing a with
  | nil => simp [holdsFrom]
  | cons b t ih => simp [holdsFrom, ih, and_assoc, BitVec.add_assoc, ← BitVec.ofNat_add, Nat.add_comm]

theorem holdsFrom_get {m a l} (h : holdsFrom m a l) (k : Nat) (hk : k < l.length) : m.read (a + BitVec.ofNat 16 k) = l[k] := by
  induction l generalizing a k with
  | nil => simp at hk
  | cons b t ih =>
    cases k with
    | zero => simpa using h.1
    | succ k =>
      have := ih h.2 k (by simpa using hk)
      simpa [BitVec.add_assoc, ← BitVec.ofNat_add, Nat.add_comm] using this

/-- A string that ends at all ends within the 65536 bytes of memory. -/
theorem string_length_le {m a str bad} (hp : ∀ b ∈ str, isPrintable b) (hbad : ¬ isPrintable bad)
    (h : holdsFrom m a (str ++ [bad])) : str.length ≤ 65535 := by
  by_contra hc
  have h2 := (holdsFrom_append.1 h).2.1
  have hlen : str.length % 65536 < str.length := by omega
  have := holdsFrom_get (holdsFrom_append.1 h).1 (str.length % 65536) hlen
  rw [show BitVec.ofNat 16 (str.length % 65536) = BitVec.ofNat 16 str.length from by apply BitVec.eq_of_toNat_eq; simp,
      h2] at this
  exact hbad (this ▸ hp _ (List.getElem_mem hlen))

/-- PrintString of a string that a zero byte ends. -/
theorem printString_zero {s a str} (hi : s.mmuState = .idle) (hp : ∀ b ∈ str, isPrintable b)
    (h : holdsFrom s.mem a (str ++ [0#8])) :
   printString a s = .next { s with mar := a + BitVec.ofNat 16 str.length, mdr := 0x00#8, out := s.out ++ str.map .outChar } := by
  have hl := string_length_le hp (by simp [isPrintable]) h
  have h2 := (holdsFrom_append.1 h).2.1
  have h1 := (holdsFrom_append.1 h).1
  unfold printString
  obtain ⟨f, hf⟩ : ∃ f, 65538 = str.length + (f + 1) := ⟨65537 - str.length, by omega⟩
  rw [hf]
  by_cases hs : str = []
  · subst hs
    rw [List.length_nil, Nat.zero_add, printLoop_zero hi (by simpa using h2)]
    simp
  · rw [printLoop_prefix str hi hp h1 hs, printLoop_zero (by exact hi) (by exact h2)]

/-- PrintString of a string that a byte above 0x7F ends. -/
theorem printString_bad {s a str bad} (hi : s.mmuState = .idle) (hp : ∀ b ∈ str, isPrintable b) (hb : 0x7F < bad.toNat)
    (h : holdsFrom s.mem a (str ++ [bad])) :
   printString a s = .next { s with
       mar := a + BitVec.ofNat 16 str.length, mdr := bad, out := s.out ++ str.map .outChar, status := .faulted,
       faultReason := some (.codecInvalidByte bad) } := by
  have hl := string_length_le hp (by simp [isPrintable]; omega) h
  have h2 := (holdsFrom_append.1 h).2.1
  have h1 := (holdsFrom_append.1 h).1
  unfold printString
  obtain ⟨f, hf⟩ : ∃ f, 65538 = str.length + (f + 1) := ⟨65537 - str.length, by omega⟩
  rw [hf]
  by_cases hs : str = []
  · subst hs
    have h2' : s.mem.read a = bad := by simpa using h2
    rw [List.length_nil, Nat.zero_add, printLoop_bad hi (by rw [h2']; exact hb), h2']
    simp [raiseFault]
  · rw [printLoop_prefix str hi hp h1 hs, printLoop_bad (by exact hi) (by rw [h2]; exact hb)]
    rw [h2]; rfl

theorem printLoop_all {f : Nat} : ∀ {a s}, s.mmuState = .idle → (∀ b, isPrintable (s.mem.read b)) →
    printLoop f a s = .fault .stringNeverEnds := by
  induction f with
  | zero => intros; rfl
  | succ f ih => intro a s hi h; rw [printLoop_printable hi (h a)]; exact ih hi h

theorem printLoop_fault {f : Nat} : ∀ {a s}, s.mmuState = .idle → printLoop f a s = .fault .stringNeverEnds → ∀ k < f,
    isPrintable (s.mem.read (a + BitVec.ofNat 16 k)) := by
  induction f with
  | zero => intro a s _ _ k hk; omega
  | succ f ih =>
    intro a s hi h k hk
    have ha : isPrintable (s.mem.read a) := by
      by_contra hc
      by_cases h0 : s.mem.read a = 0#8
      · rw [printLoop_zero hi h0] at h; cases h
      · have : 0x7F < (s.mem.read a).toNat := by
          simp only [isPrintable, not_and, not_le] at hc; exact hc h0
        rw [printLoop_bad hi this] at h; cases h
    cases k with
    | zero => simpa using ha
    | succ k =>
      rw [printLoop_printable hi ha] at h
      have := ih (by exact hi) h k (by omega)
      simpa [BitVec.add_assoc, ← BitVec.ofNat_add, Nat.add_comm] using this

/-- PrintString hangs exactly when every byte of memory is printable (I6). -/
theorem printString_fault {a s} (hi : s.mmuState = .idle) : printString a s = .fault .stringNeverEnds ↔ ∀ b, isPrintable
    (s.mem.read b) := by
  refine ⟨fun h b => ?_, fun h => printLoop_all hi h⟩
  have := printLoop_fault hi h (b - a).toNat (by have := (b-a).isLt; omega)
  rwa [BitVec.ofNat_toNat, BitVec.setWidth_eq, BitVec.add_comm, BitVec.sub_add_cancel] at this

theorem sysDispatch_two {s : State} (f) (h : s.x = 2#8) : sysDispatch f s = printString (f (sys2View s)) s :=
    by simp [sysDispatch, h]

theorem sysDispatch_three {s : State} (f) (h : s.x = 3#8) : sysDispatch f s = printString s.mar s := by simp [sysDispatch, h]

/-- What the string loop can change. -/
theorem printLoop_frame {f : Nat} : ∀ {a s t}, s.mmuState = .idle → printLoop f a s = .next t →
    t = { s with mar := t.mar, mdr := t.mdr, out := t.out, status := t.status, faultReason := t.faultReason } := by
  induction f with
  | zero => intro a s t _ h; cases h
  | succ f ih =>
    intro a s t hi h
    by_cases h0 : s.mem.read a = 0#8
    · rw [printLoop_zero hi h0] at h; cases h; rfl
    · by_cases h7 : 0x7F < (s.mem.read a).toNat
      · rw [printLoop_bad hi h7] at h; cases h; rfl
      · rw [printLoop_printable hi ⟨h0, by omega⟩] at h
        have := ih (s := { s with mar := a, mdr := s.mem.read a, out := s.out ++ [.outChar (s.mem.read a)] }) hi h
        exact this

/-- What SYS can change. -/
theorem sysDispatch_frame {f} {s t : State} (hi : s.mmuState = .idle) (h : sysDispatch f s = .next t) :
    t = { s with mar := t.mar, mdr := t.mdr, out := t.out, status := t.status, faultReason := t.faultReason } := by
  unfold sysDispatch at h
  split at h
  · cases h; rfl
  · split at h
    · exact printLoop_frame hi h
    · split at h
      · exact printLoop_frame hi h
      · cases h; rfl

theorem printLoop_outcome {f : Nat} : ∀ {a s}, (∃ t, printLoop f a s = .next t) ∨
    printLoop f a s = .fault .stringNeverEnds := by
  induction f with
  | zero => intro a s; exact .inr rfl
  | succ f ih =>
    intro a s
    simp only [printLoop]
    split
    · exact .inl ⟨_, rfl⟩
    · split
      · exact .inl ⟨_, rfl⟩
      · exact ih

/-- The two outcomes of SYS. -/
theorem sysDispatch_outcome {f} {s : State} (hi : s.mmuState = .idle) : (∃ t, sysDispatch f s = .next t) ∨
    (sysDispatch f s = .fault .stringNeverEnds ∧ ∀ b, isPrintable (s.mem.read b)) := by
  unfold sysDispatch
  split
  · exact .inl ⟨_, rfl⟩
  · split
    · rcases printLoop_outcome (f := 65538) (a := f (sys2View s)) (s := s) with h | h
      · exact .inl h
      · exact .inr ⟨h, (printString_fault hi).1 h⟩
    · split
      · rcases printLoop_outcome (f := 65538) (a := s.mar) (s := s) with h | h
        · exact .inl h
        · exact .inr ⟨h, (printString_fault hi).1 h⟩
      · exact .inl ⟨_, rfl⟩

end Sys2Proof.Machine
end

