-- ==== Sys2Proof/Laws/Execute.lean ====
section
/-! SUPPORT. What the execute work of any instruction can change, and how it can end. -/

namespace Sys2Proof.Machine

/-- What the execute work of any instruction can change: a register, a flag, PC, MAR, MDR, the two execute flags, the output
and the run status; never memory, the MMU, the interrupt state or the counter. -/
theorem exec_frame {i : Instr} {s t : State} (hi : s.mmuState = .idle) (h : exec i s = .next t) :
    t = { s with a := t.a, x := t.x, y := t.y, z := t.z, v := t.v, pc := t.pc, mar := t.mar, mdr := t.mdr,
                 phase2 := t.phase2, writePending := t.writePending, out := t.out, status := t.status, faultReason :=
                     t.faultReason } := by
  cases i
  case sysImplied => rw [sysDispatch_frame (f := Config.sys2Address) hi h]
  case sysAbs => rw [sysDispatch_frame (f := Config.sys2Address) hi h]
  case incAbs =>
    simp only [exec, execIncAbs] at h
    cases h
    split <;> rfl
  case bneRel =>
    simp only [exec, execBneRel] at h
    cases h
    split <;> rfl
  all_goals (cases h; rfl)

/-- Only INC changes `phase2` (10_state.md R32). -/
theorem exec_phase2 {i : Instr} {s t : State} (hi : s.mmuState = .idle) (h : exec i s = .next t)
    (hn : ∀ ea, i ≠ .incAbs ea) : t.phase2 = s.phase2 := by
  cases i
  case sysImplied => rw [sysDispatch_frame (f := Config.sys2Address) hi h]
  case sysAbs => rw [sysDispatch_frame (f := Config.sys2Address) hi h]
  case incAbs => exact absurd rfl (hn _)
  case bneRel =>
    simp only [exec, execBneRel] at h
    cases h
    split <;> rfl
  all_goals (cases h; rfl)

/-- Only STA and INC change `writePending` (10_state.md R33). -/
theorem exec_writePending {i : Instr} {s t : State} (hi : s.mmuState = .idle) (h : exec i s = .next t)
    (hn : ∀ ea, i ≠ .incAbs ea) (hn' : ∀ ea, i ≠ .staAbs ea) : t.writePending = s.writePending := by
  cases i
  case sysImplied => rw [sysDispatch_frame (f := Config.sys2Address) hi h]
  case sysAbs => rw [sysDispatch_frame (f := Config.sys2Address) hi h]
  case incAbs => exact absurd rfl (hn _)
  case staAbs => exact absurd rfl (hn' _)
  case bneRel =>
    simp only [exec, execBneRel] at h
    cases h
    split <;> rfl
  all_goals (cases h; rfl)

theorem exec_cycles {i s t} (hi : s.mmuState = .idle) (h : exec i s = .next t) : t.cycles = s.cycles := by
  rw [exec_frame hi h]

/-- The execute work ends the run only by BRK or a fault. -/
theorem exec_status_of_not_faulted {i : Instr} {s t : State} (hi : s.mmuState = .idle) (hr : s.status = .running)
    (h : exec i s = .next t) (hf : t.status ≠ .faulted) :
    if i = .brk then t.status = .halted else t.status = .running := by
  have hloop : ∀ {f a} {s t : State}, s.mmuState = .idle → s.status = .running → printLoop f a s = .next t →
      t.status ≠ .faulted → t.status = .running := by
    intro f
    induction f with
    | zero => intro a s t _ _ h; cases h
    | succ f ih =>
      intro a s t hi hr h hf
      by_cases h0 : s.mem.read a = 0#8
      · rw [printLoop_zero hi h0] at h; cases h; exact hr
      · by_cases h7 : 0x7F < (s.mem.read a).toNat
        · rw [printLoop_bad hi h7] at h; cases h; exact absurd rfl hf
        · rw [printLoop_printable hi ⟨h0, by omega⟩] at h
          exact ih (s := { s with mar := a, mdr := s.mem.read a, out := s.out ++ [.outChar (s.mem.read a)] }) hi hr h hf
  have hsys : sysDispatch Config.sys2Address s = .next t → t.status = .running := by
    intro h
    unfold sysDispatch at h
    split at h
    · cases h; exact hr
    · split at h
      · exact hloop hi hr h hf
      · split at h
        · exact hloop hi hr h hf
        · cases h; exact hr
  cases i
  case sysImplied => simpa using hsys h
  case sysAbs => simpa using hsys h
  case incAbs => simp only [exec, execIncAbs] at h; cases h; rw [if_neg (by simp)]; split <;> exact hr
  case bneRel => simp only [exec, execBneRel] at h; cases h; rw [if_neg (by simp)]; split <;> exact hr
  case brk => cases h; rfl
  all_goals (cases h; rw [if_neg (by simp)]; exact hr)

/-- The two outcomes of the execute work. -/
theorem exec_outcome {i} {s : State} (hi : s.mmuState = .idle) : (∃ t, exec i s = .next t) ∨
    (exec i s = .fault .stringNeverEnds ∧ ∀ b, isPrintable (s.mem.read b)) := by
  cases i
  case sysImplied => exact sysDispatch_outcome hi
  case sysAbs => exact sysDispatch_outcome hi
  all_goals exact .inl ⟨_, rfl⟩

/-- Every instruction but INC has one phase. -/
theorem executePhases_other {i : Instr} {d : State} (hx : d.mmuState = .idle) (hp : d.phase2 = false)
    (hn : ∀ ea, i ≠ .incAbs ea) :
   executePhases i d = exec i d := by
  unfold executePhases
  cases he : exec i d with
  | fault r => rfl
  | refused r => rfl
  | next u =>
    rw [andThen_next, if_neg]
    rw [(exec_phase2 hx he hn), hp]; simp

/-- Both phases of INC (42_arithmetic.md R172, R173). -/
theorem executePhases_inc {ea : Addr} {d : State} (hr : d.status = .running) (hp : d.phase2 = false) :
   executePhases (.incAbs ea) d = .next { d with
     a := d.mdr + 1#8, mdr := d.mdr + 1#8, v := incOverflow Config.incVNoWrap d.mdr d.v, writePending := true, step :=
         .execute, cycles := d.cycles + 1 } := by
  unfold executePhases
  have e : exec (.incAbs ea) d = .next (incPhase1 d) := by simp [exec, execIncAbs, hp]
  have hf : finishExecute (incPhase1 d) = setStep .execute (incPhase1 d) := by
    simp [finishExecute, incPhase1, hr]
  rw [e, andThen_next, if_pos (show (incPhase1 d).status = .running ∧ (incPhase1 d).phase2 = true from ⟨hr, rfl⟩), hf]
  obtain ⟨h1, -⟩ := incValue_spec d.mdr
  have h1' : incValue (countPulse (setStep .execute (incPhase1 d))).a = d.mdr + 1#8 := h1
  have h2 : (countPulse (setStep .execute (incPhase1 d))).phase2 = true := rfl
  simp only [exec, execIncAbs, h2, if_true, incPhase2, h1']
  congr 1
  ext1 <;> first | rfl | exact hp.symm

end Sys2Proof.Machine
end

