-- ==== Sys2Proof/Laws/Interrupts.lean ====
section
/-! SUPPORT. The host's calls, the interrupt state, and why the execute work does not depend on it. -/

namespace Sys2Proof.Machine

/-- What one call of the host can change. -/
theorem hostAct_frame (act : HostAction) (s : State) :
   hostAct act s = { s with
       devices := (hostAct act s).devices, pending := (hostAct act s).pending, queue := (hostAct act s).queue,
       status := (hostAct act s).status } ∧
   ((hostAct act s).status = s.status ∨ (s.status = .running ∧ (hostAct act s).status = .stopped)) := by
  cases act with
  | acceptInterrupt t p => exact ⟨rfl, .inl rfl⟩
  | keypress t => exact ⟨rfl, .inl rfl⟩
  | addDevice d => simp only [hostAct, addDevice]; split <;> exact ⟨rfl, .inl rfl⟩
  | stop =>
    simp only [hostAct, stopRequest]
    split
    · exact ⟨rfl, .inr ⟨‹_›, rfl⟩⟩
    · exact ⟨rfl, .inl rfl⟩

theorem firstBadByte_eq_none {l : List Nat} : firstBadByte l = none ↔ ∀ b ∈ l, b < 256 := by
  induction l with
  | nil => simp [firstBadByte]
  | cons b r ih => simp only [firstBadByte]; split <;> simp_all

/-- `s` with another interrupt state and output. -/
def withInterrupts (d : List Device) (p : Bool) (q : List (Token × Int)) (o : List Event) (s : State) : State :=
    { s with devices := d, pending := p, queue := q, out := o }

theorem sameButInterrupts_iff {s u : State} : sameButInterrupts s u ↔ ∃ d p q o, u = withInterrupts d p q o s ∧
    outputEvents s.out = outputEvents o := by
  constructor
  · rintro ⟨h1, h2⟩; exact ⟨_, _, _, _, h1, h2⟩
  · rintro ⟨d, p, q, o, rfl, h⟩; exact ⟨rfl, h⟩

theorem sameButInterrupts_withInterrupts {s d p q o} (h : outputEvents s.out = outputEvents o) : sameButInterrupts s
    (withInterrupts d p q o s) := sameButInterrupts_iff.2 ⟨d, p, q, o, rfl, h⟩

theorem sameButInterrupts_symm {s t} (h : sameButInterrupts s t) : sameButInterrupts t s := by
  obtain ⟨d, p, q, o, rfl, ho⟩ := sameButInterrupts_iff.1 h
  exact sameButInterrupts_iff.2 ⟨s.devices, s.pending, s.queue, s.out, rfl, ho.symm⟩

theorem sameButInterrupts_trans {s t u} (h : sameButInterrupts s t) (h' : sameButInterrupts t u) : sameButInterrupts s u := by
  obtain ⟨d, p, q, o, rfl, ho⟩ := sameButInterrupts_iff.1 h
  obtain ⟨d', p', q', o', rfl, ho'⟩ := sameButInterrupts_iff.1 h'
  exact sameButInterrupts_iff.2 ⟨d', p', q', o', rfl, ho.trans ho'⟩

theorem outputEvents_append {a b} (e) (h : outputEvents a = outputEvents b) : outputEvents (a ++ [e]) = outputEvents
    (b ++ [e]) := by
  simp only [outputEvents, List.filter_append] at *; rw [h]

/-- Two runs that both go on to states alike but for the interrupt state, or both hang. -/
def SameRun (x y : Result) : Prop := (∃ t u, x = .next t ∧ y = .next u ∧ sameButInterrupts t u) ∨
    (x = .fault .stringNeverEnds ∧ y = .fault .stringNeverEnds)

theorem SameRun.next {t u} (h : sameButInterrupts t u) : SameRun (.next t) (.next u) := .inl ⟨_, _, rfl, rfl, h⟩

theorem SameRun.andThen {x y f g} (h : SameRun x y) (hf : ∀ t u, sameButInterrupts t u → SameRun (f t) (g u)) : SameRun
    (andThen x f) (andThen y g) := by
  rcases h with ⟨t, u, rfl, rfl, h⟩ | ⟨rfl, rfl⟩
  · exact hf _ _ h
  · exact .inr ⟨rfl, rfl⟩

theorem mmuRead_withInterrupts {s d p q o} : mmuRead (withInterrupts d p q o s) = withInterrupts d p q o (mmuRead s) := by
  unfold mmuRead mmuAdvance
  simp only [memRead_mmuState]
  show (match s.mmuState with | .lowPending => _ | .highPending => _ | .idle => _) = _
  cases s.mmuState <;> rfl

theorem mmuRead_keeps_out (s : State) : (mmuRead s).out = s.out := by
  unfold mmuRead mmuAdvance
  split <;> rfl

theorem printLoop_sameRun {f} : ∀ {a s d p q o}, outputEvents s.out = outputEvents o → SameRun (printLoop f a s)
    (printLoop f a (withInterrupts d p q o s)) := by
  induction f with
  | zero => intros; exact .inr ⟨rfl, rfl⟩
  | succ f ih =>
    intro a s d p q o h
    simp only [printLoop]
    have e : mmuRead (changeMAR a (withInterrupts d p q o s)) = withInterrupts d p q o (mmuRead (changeMAR a s)) :=
        mmuRead_withInterrupts (s := changeMAR a s)
    have ho : (mmuRead (changeMAR a s)).out = s.out := by rw [mmuRead_keeps_out]; rfl
    rw [e]
    generalize mmuRead (changeMAR a s) = r at *
    have hm : (withInterrupts d p q o r).mdr = r.mdr := rfl
    rw [hm]
    split
    · exact SameRun.next (sameButInterrupts_withInterrupts (by rw [ho]; exact h))
    · split
      · exact SameRun.next (sameButInterrupts_iff.2 ⟨d, p, q, o, rfl, by show outputEvents r.out = _; rw [ho]; exact h⟩)
      · exact ih (s := emit (.outChar r.mdr) r) (o := o ++ [.outChar r.mdr])
            (by show outputEvents (r.out ++ _) = _; rw [ho]; exact outputEvents_append _ h)

theorem sysDispatch_sameRun {f} {s d p q o} (h : outputEvents s.out = outputEvents o) : SameRun (sysDispatch f s)
    (sysDispatch f (withInterrupts d p q o s)) := by
  unfold sysDispatch
  have e1 : (withInterrupts d p q o s).x = s.x := rfl
  have e2 : sys2View (withInterrupts d p q o s) = sys2View s := rfl
  have e3 : (withInterrupts d p q o s).mar = s.mar := rfl
  rw [e1, e2, e3]
  split
  · exact SameRun.next ⟨rfl, outputEvents_append (.outHex s.y) h⟩
  · split
    · exact printLoop_sameRun h
    · split
      · exact printLoop_sameRun h
      · exact SameRun.next (sameButInterrupts_withInterrupts h)

/-- The execute work does not depend on the interrupt state (40_pipeline.md R117). -/
theorem exec_sameRun {i} {s d p q o} (h : outputEvents s.out = outputEvents o) : SameRun (exec i s)
    (exec i (withInterrupts d p q o s)) := by
  cases i
  case sysImplied => exact sysDispatch_sameRun h
  case sysAbs => exact sysDispatch_sameRun h
  case incAbs =>
    refine SameRun.next ?_
    show sameButInterrupts _ (if s.phase2 = true then _ else _)
    split <;> exact sameButInterrupts_iff.2 ⟨d, p, q, o, rfl, h⟩
  case bneRel =>
    refine SameRun.next ?_
    show sameButInterrupts _ (if s.z = true then _ else _)
    split <;> exact sameButInterrupts_iff.2 ⟨d, p, q, o, rfl, h⟩
  all_goals exact SameRun.next (sameButInterrupts_iff.2 ⟨d, p, q, o, rfl, h⟩)

theorem finishExecute_withInterrupts {s d p q o} : finishExecute (withInterrupts d p q o s) = withInterrupts d p q o
    (finishExecute s) := by
  unfold finishExecute
  have e1 : (withInterrupts d p q o s).status = s.status := rfl
  have e2 : (withInterrupts d p q o s).phase2 = s.phase2 := rfl
  have e3 : (withInterrupts d p q o s).writePending = s.writePending := rfl
  rw [e1, e2, e3]
  split
  · rfl
  · split
    · rfl
    · split <;> rfl

theorem finishExecute_keeps_out (s : State) : (finishExecute s).out = s.out := by
  unfold finishExecute
  split
  · rfl
  · split
    · rfl
    · split <;> rfl

theorem doExecute_sameRun {s d p q o} (h : outputEvents s.out = outputEvents o) : SameRun (doExecute s)
    (doExecute (withInterrupts d p q o s)) := by
  unfold doExecute
  have e : instrAtExecute (withInterrupts d p q o s) = instrAtExecute s := rfl
  rw [e]
  cases instrAtExecute s with
  | none =>
    refine SameRun.next ?_
    have : execUndefined Config.illegalOpcodePolicy (withInterrupts d p q o s) = withInterrupts d p q o
        (execUndefined Config.illegalOpcodePolicy s) := by
      unfold execUndefined; split <;> rfl
    rw [this, finishExecute_withInterrupts]
    refine sameButInterrupts_withInterrupts ?_
    rw [finishExecute_keeps_out]
    have : (execUndefined Config.illegalOpcodePolicy s).out = s.out := by
      unfold execUndefined; split <;> rfl
    rw [this]; exact h
  | some i =>
    refine SameRun.andThen (exec_sameRun h) fun t u htu => ?_
    obtain ⟨d, p, q, o, rfl, ho⟩ := sameButInterrupts_iff.1 htu
    rw [finishExecute_withInterrupts]
    exact SameRun.next (sameButInterrupts_withInterrupts (by rw [finishExecute_keeps_out]; exact ho))

theorem doWriteback_withInterrupts {s d p q o} : doWriteback (withInterrupts d p q o s) = withInterrupts d p q o
    (doWriteback s) := by
  unfold doWriteback
  have e3 : (withInterrupts d p q o s).writePending = s.writePending := rfl
  rw [e3]; split <;> rfl

theorem doWriteback_keeps_out (s : State) : (doWriteback s).out = s.out := by
  unfold doWriteback; split <;> rfl

/-- The interrupt state is kept. -/
def KeepsInterrupts (s t : State) : Prop := t.queue = s.queue ∧ t.pending = s.pending ∧ t.devices = s.devices

theorem KeepsInterrupts.trans {s t u} (h : KeepsInterrupts s t) (h' : KeepsInterrupts t u) : KeepsInterrupts s u :=
    ⟨h'.1.trans h.1, h'.2.1.trans h.2.1, h'.2.2.trans h.2.2⟩

theorem mmuRead_keepsInterrupts (s : State) : KeepsInterrupts s (mmuRead s) := by
  unfold mmuRead mmuAdvance
  split <;> exact ⟨rfl, rfl, rfl⟩

theorem printLoop_keepsInterrupts {f} : ∀ {a s t}, printLoop f a s = .next t → KeepsInterrupts s t := by
  induction f with
  | zero => intro a s t h; cases h
  | succ f ih =>
    intro a s t h
    simp only [printLoop] at h
    have e := mmuRead_keepsInterrupts (changeMAR a s)
    split at h
    · cases h; exact e
    · split at h
      · cases h; exact e
      · exact KeepsInterrupts.trans e (ih (s := emit _ _) h)

theorem sysDispatch_keepsInterrupts {f} {s t : State} (h : sysDispatch f s = .next t) : KeepsInterrupts s t := by
  unfold sysDispatch at h
  split at h
  · cases h; exact ⟨rfl, rfl, rfl⟩
  · split at h
    · exact printLoop_keepsInterrupts h
    · split at h
      · exact printLoop_keepsInterrupts h
      · cases h; exact ⟨rfl, rfl, rfl⟩

theorem exec_keepsInterrupts {i} {s t : State} (h : exec i s = .next t) : KeepsInterrupts s t := by
  cases i
  case sysImplied => exact sysDispatch_keepsInterrupts h
  case sysAbs => exact sysDispatch_keepsInterrupts h
  case incAbs => simp only [exec, execIncAbs] at h; cases h; split <;> exact ⟨rfl, rfl, rfl⟩
  case bneRel => simp only [exec, execBneRel] at h; cases h; split <;> exact ⟨rfl, rfl, rfl⟩
  all_goals (cases h; exact ⟨rfl, rfl, rfl⟩)

theorem finishExecute_keepsInterrupts (s : State) : KeepsInterrupts s (finishExecute s) := by
  unfold finishExecute
  split
  · exact ⟨rfl, rfl, rfl⟩
  · split
    · exact ⟨rfl, rfl, rfl⟩
    · split <;> exact ⟨rfl, rfl, rfl⟩

theorem execUndefined_keepsInterrupts (p) (s : State) : KeepsInterrupts s (execUndefined p s) := by
  unfold execUndefined; split <;> exact ⟨rfl, rfl, rfl⟩

theorem doExecute_keepsInterrupts {s t : State} (h : doExecute s = .next t) : KeepsInterrupts s t := by
  unfold doExecute at h
  split at h
  · obtain ⟨u, hu, hut⟩ := andThen_eq_next h
    cases hut
    exact (exec_keepsInterrupts hu).trans (finishExecute_keepsInterrupts _)
  · cases h; exact (execUndefined_keepsInterrupts _ _).trans (finishExecute_keepsInterrupts _)

theorem pendingOk_of_keepsInterrupts {s t : State} (h : KeepsInterrupts s t) (hs : s.PendingOk) : t.PendingOk := by
  unfold State.PendingOk
  rw [h.1, h.2.1]
  exact hs

end Sys2Proof.Machine
end

