-- ==== Sys2Proof/Laws/Memory.lean ====
section
/-! SUPPORT. The laws of memory: every operation keeps the canonical form, a read after a write, and equal reads mean equal
memories (20_memory.md R50 to R53, R66). -/

namespace Sys2Proof.Machine

theorem Memory.wfFrom_mono {m : Memory} {lo lo' : Nat} (h : Memory.wfFrom lo m = true) (hle : lo' ≤ lo) :
    Memory.wfFrom lo' m = true := by
  cases m with
  | nil => rfl
  | cons c rest =>
    obtain ⟨k, b⟩ := c
    simp only [Memory.wfFrom, Bool.and_eq_true, decide_eq_true_eq] at h ⊢
    exact ⟨⟨⟨by omega, h.1.1.2⟩, h.1.2⟩, h.2⟩

/-- A cell of a canonical memory, taken apart. -/
theorem Memory.wfFrom_cons {lo k : Nat} {b : Byte} {rest : Memory} :
    Memory.wfFrom lo ((k, b) :: rest) = true ↔
      lo ≤ k ∧ k < 65536 ∧ b ≠ Memory.default ∧ Memory.wfFrom (k + 1) rest = true := by
  simp [Memory.wfFrom, and_assoc]

/-- Below the first possible address nothing is listed. -/
theorem Memory.lookup_below {m : Memory} {lo n : Nat} (h : Memory.wfFrom lo m = true) (hn : n < lo) :
    m.lookup n = Memory.default := by
  induction m generalizing lo with
  | nil => rfl
  | cons c rest ih =>
    obtain ⟨k, b⟩ := c
    rw [Memory.wfFrom_cons] at h
    rw [Memory.lookup, if_neg (by omega)]
    exact ih h.2.2.2 (by omega)

/-- Every address a canonical memory lists is below 65536: from there on it reads as the default. -/
theorem Memory.lookup_above {m : Memory} {lo n : Nat} (h : Memory.wfFrom lo m = true) (hn : 65536 ≤ n) :
    m.lookup n = Memory.default := by
  induction m generalizing lo with
  | nil => rfl
  | cons c rest ih =>
    obtain ⟨k, b⟩ := c
    rw [Memory.wfFrom_cons] at h
    rw [Memory.lookup, if_neg (by omega)]
    exact ih h.2.2.2

/-- A write keeps the canonical form. -/
theorem Memory.insert_wfFrom {m : Memory} {lo n : Nat} {v : Byte} (h : Memory.wfFrom lo m = true) (hlo : lo ≤ n)
    (hn : n < 65536) : Memory.wfFrom lo (m.insert n v) = true := by
  induction m generalizing lo with
  | nil =>
    unfold Memory.insert
    split
    · rfl
    · rename_i hv
      rw [Memory.wfFrom_cons]
      exact ⟨hlo, hn, hv, rfl⟩
  | cons c rest ih =>
    obtain ⟨k, b⟩ := c
    have hc := Memory.wfFrom_cons.1 h
    rw [Memory.insert]
    split
    · rename_i hnk
      split
      · exact h
      · rename_i hv
        rw [Memory.wfFrom_cons, Memory.wfFrom_cons]
        exact ⟨hlo, hn, hv, by omega, hc.2.1, hc.2.2⟩
    · split
      · split
        · exact Memory.wfFrom_mono hc.2.2.2 (by omega)
        · rename_i hnk hv
          subst hnk
          rw [Memory.wfFrom_cons]
          exact ⟨hlo, hn, hv, hc.2.2.2⟩
      · rw [Memory.wfFrom_cons]
        exact ⟨hc.1, hc.2.1, hc.2.2.1, ih hc.2.2.2 (by omega)⟩

/-- What an address reads as after a write. -/
theorem Memory.lookup_insert {m : Memory} {lo : Nat} (h : Memory.wfFrom lo m = true) (n : Nat) (v : Byte) (k : Nat) :
    (m.insert n v).lookup k = if k = n then v else m.lookup k := by
  induction m generalizing lo with
  | nil =>
    unfold Memory.insert
    split <;> rename_i hv
    · by_cases hk : k = n <;> simp [Memory.lookup, hk, hv]
    · by_cases hk : k = n
      · simp [Memory.lookup, hk]
      · simp [Memory.lookup, hk, Ne.symm hk]
  | cons c rest ih =>
    obtain ⟨j, b⟩ := c
    have hc := Memory.wfFrom_cons.1 h
    rw [Memory.insert]
    split
    · rename_i hnj
      have hn0 : Memory.lookup ((j, b) :: rest) n = Memory.default := by
        rw [Memory.lookup, if_neg (by omega)]
        exact Memory.lookup_below hc.2.2.2 (by omega)
      split
      · rename_i hv
        by_cases hk : k = n
        · rw [if_pos hk, hk, hn0, hv]
        · rw [if_neg hk]
      · by_cases hk : k = n
        · rw [if_pos hk, Memory.lookup, if_pos hk.symm]
        · rw [if_neg hk, Memory.lookup, if_neg (Ne.symm hk)]
    · split
      · rename_i hnj
        subst hnj
        split
        · rename_i hv
          by_cases hk : k = n
          · rw [if_pos hk, hk, hv]
            exact Memory.lookup_below hc.2.2.2 (by omega)
          · rw [if_neg hk, Memory.lookup, if_neg (Ne.symm hk)]
        · by_cases hk : k = n
          · rw [if_pos hk, Memory.lookup, if_pos hk.symm]
          · rw [if_neg hk, Memory.lookup, if_neg (Ne.symm hk), Memory.lookup, if_neg (Ne.symm hk)]
      · rename_i hlt hne
        rw [Memory.lookup, ih hc.2.2.2, Memory.lookup]
        by_cases hk : j = k
        · subst hk
          rw [if_pos rfl, if_pos rfl, if_neg (by omega)]
        · rw [if_neg hk, if_neg hk]

/-- Two canonical memories that read alike everywhere are equal lists. -/
theorem Memory.eq_of_lookup_eq {m m' : Memory} {lo lo' : Nat} (h : Memory.wfFrom lo m = true)
    (h' : Memory.wfFrom lo' m' = true) (hr : ∀ n, m.lookup n = m'.lookup n) : m = m' := by
  induction m generalizing lo lo' m' with
  | nil =>
    cases m' with
    | nil => rfl
    | cons c rest =>
      obtain ⟨k, b⟩ := c
      have hc := Memory.wfFrom_cons.1 h'
      exact absurd (by simpa [Memory.lookup] using (hr k).symm) hc.2.2.1
  | cons c rest ih =>
    obtain ⟨k, b⟩ := c
    have hc := Memory.wfFrom_cons.1 h
    cases m' with
    | nil => exact absurd (by simpa [Memory.lookup] using hr k) hc.2.2.1
    | cons c' rest' =>
      obtain ⟨k', b'⟩ := c'
      have hc' := Memory.wfFrom_cons.1 h'
      have hkk : k = k' := by
        rcases Nat.lt_trichotomy k k' with hlt | heq | hgt
        · have := hr k
          rw [Memory.lookup, if_pos rfl, Memory.lookup, if_neg (by omega),
            Memory.lookup_below hc'.2.2.2 (by omega)] at this
          exact absurd this hc.2.2.1
        · exact heq
        · have := hr k'
          rw [Memory.lookup, if_neg (by omega), Memory.lookup_below hc.2.2.2 (by omega), Memory.lookup,
            if_pos rfl] at this
          exact absurd this.symm hc'.2.2.1
      subst hkk
      have hb : b = b' := by simpa [Memory.lookup] using hr k
      subst hb
      have hrest : rest = rest' := ih hc.2.2.2 hc'.2.2.2 fun n => by
        by_cases hn : k = n
        · rw [Memory.lookup_below hc.2.2.2 (by omega), Memory.lookup_below hc'.2.2.2 (by omega)]
        · simpa [Memory.lookup, hn] using hr n
      rw [hrest]

/-- A write keeps the canonical form (`Memory.wf`). -/
theorem Memory.write_wf {m : Memory} (h : m.wf = true) (a : Addr) (v : Byte) : (m.write a v).wf = true :=
  Memory.insert_wfFrom h (Nat.zero_le _) a.isLt

/-- A read after a write: the written byte at its address, every other byte as before (20_memory.md R66). -/
theorem Memory.read_write {m : Memory} (h : m.wf = true) (a b : Addr) (v : Byte) :
    (m.write a v).read b = if b = a then v else m.read b := by
  unfold Memory.read Memory.write
  rw [Memory.lookup_insert h]
  by_cases hb : b = a
  · simp [hb]
  · have : b.toNat ≠ a.toNat := fun h => hb (BitVec.eq_of_toNat_eq h)
    simp [hb, this]

/-- Loading an image that fits keeps the canonical form. -/
theorem Memory.loadFrom_wf {m : Memory} (h : m.wf = true) (l : List Byte) (n : Nat) (hl : n + l.length ≤ 65536) :
    (Memory.loadFrom m n l).wf = true := by
  induction l generalizing m n with
  | nil => exact h
  | cons b rest ih =>
    have hlen : n + rest.length + 1 ≤ 65536 := by simpa [Nat.add_assoc] using hl
    exact ih (Memory.insert_wfFrom h (Nat.zero_le _) (by omega)) (n + 1) (by omega)

/-- The reset memory is canonical. -/
theorem Memory.wf_nil : Memory.wf [] = true := rfl

/-- What a loaded image reads as: its bytes where it lies, the memory before elsewhere. -/
theorem Memory.lookup_loadFrom (l : List Byte) : ∀ {m : Memory} (n : Nat), m.wf = true → n + l.length ≤ 65536 → ∀ k,
   (Memory.loadFrom m n l).lookup k = if n ≤ k ∧ k < n + l.length then l.getD (k - n) 0#8 else m.lookup k := by
  induction l with
  | nil => intro m n h _ k; rw [if_neg (by simp)]; rfl
  | cons b r ih =>
    intro m n h hl k
    simp only [List.length_cons] at hl
    have hw : (m.insert n b).wf = true := Memory.insert_wfFrom h (Nat.zero_le _) (by omega)
    rw [Memory.loadFrom, ih (n+1) hw (by omega)]
    by_cases hk : k = n
    · subst hk
      rw [if_neg (by omega), if_pos (by simp), Memory.lookup_insert h]
      simp
    · by_cases hk2 : n + 1 ≤ k ∧ k < n + 1 + r.length
      · rw [if_pos hk2, if_pos (by simp; omega)]
        obtain ⟨j, rfl⟩ : ∃ j, k = n + 1 + j := ⟨k - (n+1), by omega⟩
        rw [show n + 1 + j - (n+1) = j from by omega, show n + 1 + j - n = j + 1 from by omega]
        rfl
      · rw [if_neg hk2, if_neg (by simp; omega), Memory.lookup_insert h, if_neg hk]

end Sys2Proof.Machine
end

