-- ==== Sys2Proof/Laws/Pipeline.lean ====
section
/-! SUPPORT. The pulses of a whole instruction: what leads to its execute work and what follows it. -/

namespace Sys2Proof.Machine

/-- What a run of ticks does after one tick. -/
def goOn (n : Nat) (s : State) : Result := if atBoundary s then .next s else ticksToBoundary n s

theorem ticksToBoundary_succ (n s) : ticksToBoundary (n+1) s = andThen (pulse s) (goOn n) := by
  rw [ticksToBoundary, tick_eq]; rfl

theorem goOn_inside {n s} (hr : s.status = .running) (hs : s.step ≠ .fetch) : goOn n s = ticksToBoundary n s := by
  simp [goOn, atBoundary, hr, hs]

theorem goOn_boundary {n s} (h : s.status ≠ .running ∨ s.step = .fetch) : goOn n s = .next s := by
  have hb : atBoundary s = true := by
    unfold atBoundary
    rcases h with h | h <;> simp [h]
  unfold goOn
  rw [if_pos hb]

theorem doInterruptCheck_goOn {n v} : andThen (doInterruptCheck v) (goOn n) = doInterruptCheck v := by
  rcases doInterruptCheck_cases v with ⟨t, h, hs, -⟩ | ⟨h, -⟩
  · rw [h, andThen_next, goOn_boundary (.inr hs)]
  · rw [h]; rfl

/-- The pulses after the last execute pulse. -/
theorem finishExecute_goOn {n : Nat} {u : State} (h2 : u.status = .running → u.phase2 = false) :
   goOn (n+2) (finishExecute u) = endInstruction u := by
  by_cases hr : u.status = .running
  · have hp := h2 hr
    unfold endInstruction
    rw [if_neg (by simp [hr])]
    cases hw : u.writePending
    · rw [if_neg (by simp)]
      have e : finishExecute u = setStep .interruptCheck u := by simp [finishExecute, hr, hp, hw]
      rw [e, goOn_inside (by exact hr) (by simp), ticksToBoundary_succ, pulse_check (by exact hr) rfl, doInterruptCheck_goOn]
    · rw [if_pos rfl]
      have e : finishExecute u = setStep .writeback u := by simp [finishExecute, hr, hp, hw]
      rw [e, goOn_inside (by exact hr) (by simp), ticksToBoundary_succ, pulse_writeback (by exact hr) rfl, andThen_next]
      have h1 : (doWriteback (countPulse (setStep .writeback u))).status = .running := by simp [doWriteback, hw, hr]
      rw [goOn_inside h1 (by simp [doWriteback]), ticksToBoundary_succ, pulse_check h1 (by simp [doWriteback]),
          doInterruptCheck_goOn]
  · unfold endInstruction
    rw [if_pos hr]
    have : finishExecute u = u := by simp [finishExecute, hr]
    rw [this, goOn_boundary (.inl hr)]

/-- From the execute work to the end of the instruction. -/
theorem execute_goOn {n : Nat} {i : Instr} {d : State} (hx : d.AtExecute i) (hp : d.phase2 = false) :
    andThen (andThen (exec i d) (fun s' => .next (finishExecute s'))) (goOn (n+3)) = andThen
        (executePhases i d) endInstruction := by
  unfold executePhases
  rw [andThen_assoc, andThen_assoc]
  cases he : exec i d with
  | fault r => rfl
  | refused r => rfl
  | next u =>
    simp only [andThen_next]
    by_cases hinc : ∃ ea, i = .incAbs ea
    · obtain ⟨ea, rfl⟩ := hinc
      have hu : u = incPhase1 d := by
        simp only [exec, execIncAbs, hp] at he
        cases he; rfl
      have hup : u.phase2 = true := by rw [hu]; rfl
      by_cases hr : u.status = .running
      · rw [if_pos ⟨hr, hup⟩]
        have e : finishExecute u = setStep .execute u := by simp [finishExecute, hr, hup]
        rw [e, goOn_inside (by exact hr) (by simp), ticksToBoundary_succ, pulse_execute (by exact hr) rfl]
        have hi : instrAtExecute (countPulse (setStep .execute u)) = some (.incAbs ea) := by
          rw [hu]; show instrAtExecute d = _; exact instrAtExecute_of hx
        rw [doExecute, hi, andThen_assoc]
        simp only [andThen_next]
        cases he2 : exec (.incAbs ea) (countPulse (setStep .execute u)) with
        | fault r => rfl
        | refused r => rfl
        | next w =>
          simp only [andThen_next]
          apply finishExecute_goOn
          intro _
          simp only [exec, execIncAbs, countPulse_phase2, setStep_phase2, hup] at he2
          cases he2; rfl
      · rw [if_neg (fun h => hr h.1), andThen_next]
        exact finishExecute_goOn (fun h => absurd h hr)
    · have hpu : u.phase2 = false := (exec_phase2 hx.idle he (fun ea h => hinc ⟨ea, h⟩)).trans hp
      rw [if_neg (fun h => by simp [hpu] at h), andThen_next]
      exact finishExecute_goOn (fun _ => hpu)

/-- What decodes at PC: its form fits X, its opcode stands at PC and its operands in the bytes after it (30_encoding.md R81). -/
theorem decode_at_pc {s : State} {i : Instr} {rest : List Byte} (h : decode s.x (fetchBytes s) = .ok (i, rest)) :
    i.wellFormed s.x = true ∧ opcodeOf i = s.mem.read s.pc ∧
      (operandsOf i = [] ∨ operandsOf i = [s.mem.read (s.pc + 1#16)] ∨
        operandsOf i = [s.mem.read (s.pc + 1#16), s.mem.read (s.pc + 2#16)]) := by
  have e : fetchBytes s = [s.mem.read s.pc, s.mem.read (s.pc + 1#16), s.mem.read (s.pc + 2#16)] := by
    simp [fetchBytes, instrByteAddr]
  rw [e] at h
  rcases classify_cases (s.mem.read s.pc) s.x with ⟨hc, ho, hx⟩ | ⟨hc, ho⟩ | ⟨hc, ho, hx⟩ | ⟨hc, ho, hx⟩
  all_goals
    simp only [decode, hc] at h
    obtain ⟨h1, -⟩ := instrOrUndefined_ok h
    refine ⟨(instrOf_eq_some h1).2, (instrOf_eq_some h1).1, ?_⟩
  · exact .inl (operandsOf_instrOf_zero h1 (.inr ⟨ho, hx⟩))
  · exact .inr (.inl (operandsOf_instrOf_one h1 ho))
  · exact .inr (.inr (by simpa using operandsOf_instrOf_two h1 ho hx))
  · refine .inl (operandsOf_instrOf_zero h1 (.inl ?_))
    have hd : s.mem.read s.pc ∈ definedOpcodes := by
      by_contra hd
      rw [instrOf_undefined _ _ _ hd] at h1
      cases h1
    simp only [definedOpcodes, List.mem_append] at hd
    tauto

/-- Byte `k` of the instruction that decodes at PC stands at PC + k (30_encoding.md R81). -/
theorem encode_at_pc {s : State} {i : Instr} {rest : List Byte} (h : decode s.x (fetchBytes s) = .ok (i, rest)) {k : Nat}
    (hk : k < (encode i).length) : (encode i)[k]? = some (s.mem.read (s.pc + BitVec.ofNat 16 k)) := by
  obtain ⟨-, hop, hops⟩ := decode_at_pc h
  unfold encode at *
  rcases hops with h | h | h <;> rw [h] at hk ⊢ <;> simp at hk
  · subst hk; simp [hop]
  · obtain rfl | rfl : k = 0 ∨ k = 1 := by omega
    · simp [hop]
    · simp
  · obtain rfl | rfl | rfl : k = 0 ∨ k = 1 ∨ k = 2 := by omega
    · simp [hop]
    · simp
    · simp

/-- A defined opcode at PC always decodes: memory never ends (20_memory.md R62). -/
theorem decode_at_pc_defined {s : State} (h : s.mem.read s.pc ∈ definedOpcodes) :
    ∃ i rest, decode s.x (fetchBytes s) = .ok (i, rest) := by
  have e : fetchBytes s = [s.mem.read s.pc, s.mem.read (s.pc + 1#16), s.mem.read (s.pc + 2#16)] := by
    simp [fetchBytes, instrByteAddr]
  rw [e]
  have k : ∀ b ea rest, ∃ i r, instrOrUndefined (s.mem.read s.pc) s.x b ea rest = .ok (i, r) := by
    intro b ea rest
    obtain ⟨i, hi, -⟩ := instrOf_defined s.x b ea h
    exact ⟨i, rest, by simp [instrOrUndefined, hi]⟩
  cases hc : classify (s.mem.read s.pc) s.x <;> simp only [decode, hc] <;> exact k _ _ _

theorem addr_two_sub_one (a : Addr) : a + 2#16 - 1#16 = a + 1#16 := by
  rw [show (2#16) = 1#16 + 1#16 from rfl, ← BitVec.add_assoc, BitVec.add_sub_cancel]

/-- The fetch and decode pulses leave what the execute work needs (40_pipeline.md R114). -/
theorem delivered_atExecute {s : State} {i : Instr} (hr : s.Ready) (hw : i.wellFormed s.x = true) :
    (s.delivered i).AtExecute i := by
  rcases classify_opcodeOf hw with ⟨h, -⟩ | ⟨b, h, -⟩ | ⟨b, c, h, -⟩
  all_goals
    refine ⟨?_, ?_, ?_, ?_⟩
    · simp [State.delivered, h]
    · simpa [State.delivered, h] using hw
    · simp [State.SeesOperands, State.delivered, h, addr_two_sub_one]
    · simpa [State.delivered, h] using hr.idle

theorem delivered_frame (i : Instr) (s : State) : s.delivered i = { s with
    ir := opcodeOf i, pc := (s.delivered i).pc, mar := (s.delivered i).mar, mdr := (s.delivered i).mdr
    mmuLow := (s.delivered i).mmuLow, step := (s.delivered i).step, cycles := (s.delivered i).cycles } := by
  unfold State.delivered; split <;> rfl

theorem delivered_fields (i : Instr) {s : State} (hr : s.Ready) : (s.delivered i).status = .running ∧
    (s.delivered i).phase2 = false ∧
   (s.delivered i).writePending = false ∧ (s.delivered i).mmuState = .idle ∧ (s.delivered i).PendingOk ∧
       (s.delivered i).mem = s.mem ∧ (s.delivered i).a = s.a
   ∧ (s.delivered i).x = s.x ∧ (s.delivered i).y = s.y ∧ (s.delivered i).z = s.z ∧ (s.delivered i).v = s.v := by
  rw [delivered_frame]; exact ⟨hr.running, hr.phase2, hr.writePending, hr.idle, hr.pending, rfl, rfl, rfl, rfl, rfl, rfl⟩

/-- PC is then the address of the next instruction (40_pipeline.md R115). -/
theorem delivered_pc {i : Instr} {s : State} (hw : i.wellFormed s.x = true) : (s.delivered i).pc = s.pc + BitVec.ofNat 16
    (encode i).length := by
  rcases classify_opcodeOf hw with ⟨h, -⟩ | ⟨b, h, -⟩ | ⟨b, c, h, -⟩ <;> simp [State.delivered, h, encode]

/-- The fetch pulse of a ready machine. -/
theorem ticksToBoundary_fetch {s : State} (hr : s.Ready) {n : Nat} :
    ticksToBoundary (n + 1) s = ticksToBoundary n { s with
      cycles := s.cycles + 1, mar := s.pc, mdr := s.mem.read s.pc, ir := s.mem.read s.pc, pc := s.pc + 1#16
      step := .decode } := by
  rw [ticksToBoundary_succ, pulse_fetch hr.running hr.fetch, andThen_next, doFetch_idle (by exact hr.idle), goOn_inside]
  · rfl
  · exact hr.running
  · simp

/-- The fetch and decode pulses of a ready machine lead to the execute work of the instruction at PC, with pulses to spare. -/
theorem ticksToBoundary_execute {s : State} {i : Instr} {rest : List Byte} (hr : s.Ready)
    (hd : decode s.x (fetchBytes s) = .ok (i, rest)) :
    ∃ n, ticksToBoundary 7 s =
      andThen (andThen (exec i (s.delivered i)) (fun t => .next (finishExecute t))) (goOn (n + 3)) := by
  obtain ⟨hw, hop, hops⟩ := decode_at_pc hd
  have hi := instrAtExecute_of (delivered_atExecute hr hw)
  rw [ticksToBoundary_fetch hr]
  rcases classify_opcodeOf hw with ⟨h, hc⟩ | ⟨b, h, hc⟩ | ⟨lo, hi', h, hc⟩
  · refine ⟨2, ?_⟩
    simp only [hop] at hc
    rw [ticksToBoundary_succ, pulse_decode (by exact hr.running) rfl, doDecode_zero (by exact hc)]
    generalize hg : countPulse _ = g
    have e : g = s.delivered i := by
      rw [← hg]
      simp only [State.delivered, h, hop, countPulse]
    rw [e, doExecute, hi]
  · refine ⟨1, ?_⟩
    simp only [hop] at hc
    rw [ticksToBoundary_succ, pulse_decode (by exact hr.running) rfl, doDecode_one (by exact hc), andThen_next,
      decodeOne_idle (by exact hr.idle), goOn_inside (by exact hr.running) (by simp), ticksToBoundary_succ,
      pulse_execute (by exact hr.running) rfl]
    have hb : s.mem.read (s.pc + 1#16) = b := by
      rw [h] at hops
      simp at hops
      exact hops.symm
    generalize hg : countPulse _ = g
    have e : g = s.delivered i := by
      rw [← hg]
      simp only [State.delivered, h, hop, hb, countPulse, BitVec.add_assoc]
      ext1 <;> rfl
    rw [e, doExecute, hi]
  · refine ⟨0, ?_⟩
    simp only [hop] at hc
    rw [ticksToBoundary_succ, pulse_decode (by exact hr.running) rfl, doDecode_two (by exact hc), countPulse_firstPass,
      if_neg (by simp [hr.firstPass]), andThen_next, decodeTwoFirst_eq, goOn_inside (by exact hr.running) (by simp),
      ticksToBoundary_succ, pulse_decode (by exact hr.running) rfl, doDecode_two (by exact hc), countPulse_firstPass,
      if_pos rfl, andThen_next, decodeTwoSecond_high rfl, goOn_inside (by exact hr.running) (by simp),
      ticksToBoundary_succ, pulse_execute (by exact hr.running) rfl]
    rw [h] at hops
    simp only [List.cons_ne_nil, List.cons.injEq, false_or, and_false, and_true] at hops
    obtain ⟨hlo, hhi⟩ := hops
    generalize hg : countPulse _ = g
    have e : g = s.delivered i := by
      rw [← hg]
      simp only [State.delivered, h, hop, hlo, hhi, countPulse, BitVec.add_assoc]
      ext1 <;> first | rfl | exact hr.idle.symm | exact hr.firstPass.symm
    rw [e, doExecute, hi]

theorem endInstruction_ended {u : State} (h : u.status ≠ .running) : endInstruction u = .next u := if_pos h

/-- What the pulses after the execute work change. -/
theorem endInstruction_frame {u t : State} (h : endInstruction u = .next t) (hr : u.status = .running) (hp : u.phase2 = false) :
   t = { u with mem := if u.writePending = true then u.mem.write u.mar u.mdr else u.mem, writePending := false, step := .fetch,
                cycles := u.cycles + (if u.writePending = true then 2 else 1), queue := t.queue, pending := t.pending,
                    out := t.out } := by
  unfold endInstruction at h
  rw [if_neg (by simp [hr])] at h
  cases hw : u.writePending
  · rw [if_neg (by simp [hw])] at h
    have e : finishExecute u = setStep .interruptCheck u := by simp [finishExecute, hr, hp, hw]
    rw [e] at h
    rcases doInterruptCheck_cases (countPulse (setStep .interruptCheck u)) with ⟨t', h', -, ht⟩ | ⟨h', -⟩
    · rw [h'] at h; cases h
      rw [ht]; ext1 <;> first | rfl | exact hw
    · rw [h'] at h; cases h
  · rw [if_pos hw] at h
    have e : finishExecute u = setStep .writeback u := by simp [finishExecute, hr, hp, hw]
    rw [e] at h
    have e2 : countPulse (doWriteback (countPulse (setStep .writeback u))) =
        { u with mem := u.mem.write u.mar u.mdr, writePending := false, step := .interruptCheck, cycles := u.cycles + 2 } := by
      simp [doWriteback, hw, countPulse, setStep, memWrite]
    rw [e2] at h
    rcases doInterruptCheck_cases { u with
        mem := u.mem.write u.mar u.mdr, writePending := false, step := .interruptCheck,
        cycles := u.cycles + 2 } with ⟨t', h', -, ht⟩ | ⟨h', -⟩
    · rw [h'] at h; cases h
      rw [ht]; ext1 <;> rfl
    · rw [h'] at h; cases h

theorem doInterruptCheck_ok {v : State} (h : v.PendingOk) : ∃ t, doInterruptCheck v = .next t := by
  rcases doInterruptCheck_cases v with ⟨t, h', -⟩ | ⟨-, hp, hq⟩
  · exact ⟨t, h'⟩
  · exact absurd hq (h.1 hp)

/-- An interrupt check keeps `pending` in step with the queue (60_exceptions.md R251, R252). -/
theorem doInterruptCheck_pendingOk {v t : State} (h : v.PendingOk) (ht : doInterruptCheck v = .next t) : t.PendingOk := by
  unfold doInterruptCheck at ht
  cases hp : v.pending
  · rw [if_neg (by simp [hp])] at ht; cases ht; exact h
  · rw [if_pos hp] at ht
    cases hq : v.queue with
    | nil => exact absurd hq (h.1 hp)
    | cons e r =>
      have hs : supplyInterrupt v = some (e, { v with queue := r, pending := if r = [] then false else v.pending }) := by
        cases r <;> simp [supplyInterrupt, dequeue, hq]
      rw [hs] at ht; cases ht
      show (if r = [] then false else v.pending) = true ↔ r ≠ []
      cases r <;> simp [hp]

theorem endInstruction_ok {u : State} (h : u.PendingOk) : ∃ t, endInstruction u = .next t := by
  unfold endInstruction
  have hf : (finishExecute u).queue = u.queue ∧ (finishExecute u).pending = u.pending := by
    unfold finishExecute; split <;> [skip; split <;> [skip; split]] <;> exact ⟨rfl, rfl⟩
  split
  · exact ⟨_, rfl⟩
  · split
    · apply doInterruptCheck_ok
      have : ∀ v : State, (doWriteback v).queue = v.queue ∧ (doWriteback v).pending = v.pending := by
        intro v; unfold doWriteback; split <;> exact ⟨rfl, rfl⟩
      show (doWriteback _).pending = true ↔ (doWriteback _).queue ≠ []
      rw [(this _).1, (this _).2]
      show (finishExecute u).pending = true ↔ (finishExecute u).queue ≠ []
      rw [hf.1, hf.2]; exact h
    · apply doInterruptCheck_ok
      show (finishExecute u).pending = true ↔ (finishExecute u).queue ≠ []
      rw [hf.1, hf.2]; exact h

end Sys2Proof.Machine
end

