-- ==== Sys2Proof/Laws/Invariant.lean ====
section
/-! SUPPORT. The invariant through the execute work, and the pulses left in an instruction. -/

namespace Sys2Proof.Machine

/-- What the execute work keeps of the invariant besides the pipeline flags. -/
structure KeepsCore (s t : State) : Prop where
  mem : t.mem = s.mem
  devices : t.devices = s.devices
  queue : t.queue = s.queue
  pending : t.pending = s.pending
  fault : s.status = .running → s.FaultOk → t.FaultOk
  out : s.OutOk → t.OutOk

theorem outOk_append {s : State} {e : Event} (h : s.OutOk) (he : ∀ b, e = .outChar b → isPrintable b) : ∀ b,
    .outChar b ∈ s.out ++ [e] → b ≠ 0x00#8 ∧ b.toNat ≤ 0x7F := by
  intro b hb
  rcases List.mem_append.1 hb with hb | hb
  · exact h b hb
  · simp at hb; exact he b hb.symm

theorem faultOk_raise {s : State} {c} (h : (∃ b : Byte, c = .codecInvalidByte b ∧ 0x7F < b.toNat) ∨
    (∃ op, c = .illegalOpcode op ∧ op ∉ definedOpcodes)) :
   (raiseFault c s).FaultOk := by
  refine ⟨by simp [raiseFault], fun c' hc => ?_⟩
  simp only [raiseFault, Option.some.injEq] at hc
  rw [← hc]; exact h

theorem printLoop_core {f : Nat} : ∀ {a s t}, s.mmuState = .idle → printLoop f a s = .next t → KeepsCore s t := by
  induction f with
  | zero => intro a s t _ h; cases h
  | succ f ih =>
    intro a s t hi h
    by_cases h0 : s.mem.read a = 0#8
    · rw [printLoop_zero hi h0] at h; cases h; exact ⟨rfl, rfl, rfl, rfl, fun _ h => ⟨h.1, h.2⟩, fun h => h⟩
    · by_cases h7 : 0x7F < (s.mem.read a).toNat
      · rw [printLoop_bad hi h7] at h; cases h
        exact ⟨rfl, rfl, rfl, rfl, fun _ _ => faultOk_raise (.inl ⟨_, rfl, h7⟩), fun h => h⟩
      · rw [printLoop_printable hi ⟨h0, by omega⟩] at h
        have := ih (s := { s with mar := a, mdr := s.mem.read a, out := s.out ++ [.outChar (s.mem.read a)] }) hi h
        refine ⟨this.mem, this.devices, this.queue, this.pending, fun hr hf => this.fault hr ⟨hf.1, hf.2⟩,
            fun ho => this.out ?_⟩
        exact outOk_append ho (by rintro b hb; cases hb; exact ⟨h0, by omega⟩)

theorem sysDispatch_core {f} {s t : State} (hi : s.mmuState = .idle) (h : sysDispatch f s = .next t) : KeepsCore s t := by
  unfold sysDispatch at h
  split at h
  · cases h
    exact ⟨rfl, rfl, rfl, rfl, fun _ h => ⟨h.1, h.2⟩, fun h => outOk_append h (by rintro b hb; cases hb)⟩
  · split at h
    · exact printLoop_core hi h
    · split at h
      · exact printLoop_core hi h
      · cases h; exact ⟨rfl, rfl, rfl, rfl, fun _ h => h, fun h => h⟩

theorem exec_core {i} {s t : State} (hi : s.mmuState = .idle) (h : exec i s = .next t) : KeepsCore s t := by
  cases i
  case sysImplied => exact sysDispatch_core hi h
  case sysAbs => exact sysDispatch_core hi h
  case incAbs => simp only [exec, execIncAbs] at h; cases h; split <;> exact ⟨rfl, rfl, rfl, rfl, fun _ h => ⟨h.1, h.2⟩,
      fun h => h⟩
  case bneRel => simp only [exec, execBneRel] at h; cases h; split <;> exact ⟨rfl, rfl, rfl, rfl, fun _ h => ⟨h.1, h.2⟩,
      fun h => h⟩
  case brk =>
    cases h
    refine ⟨rfl, rfl, rfl, rfl, fun hr h => ⟨?_, h.2⟩, fun h => h⟩
    have := h.1
    rw [hr] at this
    simp only [halt]
    simpa using this
  all_goals (cases h; exact ⟨rfl, rfl, rfl, rfl, fun _ h => ⟨h.1, h.2⟩, fun h => h⟩)

theorem inv_of_core {s t : State} (h : KeepsCore s t) (hs : s.Inv) (hr : s.status = .running) (hp : t.PipelineOk) : t.Inv :=
  ⟨h.mem ▸ hs.mem, hp, by have := hs.pending; unfold State.PendingOk at *; rw [h.queue, h.pending]; exact this,
      h.queue ▸ hs.queue, h.fault hr hs.fault, h.out hs.out, h.devices ▸ hs.devices⟩

theorem finishExecute_core (s : State) : KeepsCore s (finishExecute s) := by
  unfold finishExecute
  split
  · exact ⟨rfl, rfl, rfl, rfl, fun _ h => h, fun h => h⟩
  · split
    · exact ⟨rfl, rfl, rfl, rfl, fun _ h => ⟨h.1, h.2⟩, fun h => h⟩
    · split <;> exact ⟨rfl, rfl, rfl, rfl, fun _ h => ⟨h.1, h.2⟩, fun h => h⟩

theorem finishExecute_pipelineOk {u : State} (hi : u.mmuState = .idle) (hf : u.firstPass = false)
    (hp : u.phase2 = true → u.ir = 0xEE#8 ∧ u.status = .running)
        (hw : u.writePending = true → u.status = .running ∧ u.phase2 = false) : (finishExecute u).PipelineOk := by
  unfold finishExecute
  split
  · rename_i hr
    refine ⟨by simp [hf], fun h => absurd (hp h).2 hr, fun h => absurd (hw h).1 hr, by simp [hi], by simp [hi]⟩
  · split
    · rename_i h2
      refine ⟨by simp [hf], fun h => ⟨rfl, (hp h2).1⟩, fun h => ?_, by simp [hi], by simp [hi]⟩
      have := (hw h).2; rw [h2] at this; cases this
    · rename_i h2
      split
      · exact ⟨by simp [hf], by simp [h2], fun _ => rfl, by simp [hi], by simp [hi]⟩
      · rename_i h3
        exact ⟨by simp [hf], by simp [h2], by simp [h3], by simp [hi], by simp [hi]⟩

/-- An execute pulse keeps the invariant. -/
theorem doExecute_inv {s t : State} (hs : s.Inv) (hr : s.status = .running) (hi : s.mmuState = .idle)
    (hf : s.firstPass = false) (hw : s.writePending = false)
    (h : doExecute s = .next t) : t.Inv := by
  unfold doExecute at h
  split at h
  · rename_i i hins
    obtain ⟨u, hu, hut⟩ := andThen_eq_next h
    cases hut
    have hc := exec_core hi hu
    have hfr := exec_frame hi hu
    have hfin := finishExecute_core u
    have e : u.mmuState = .idle ∧ u.firstPass = false ∧ u.ir = s.ir := by rw [hfr]; exact ⟨hi, hf, rfl⟩
    have hop := (instrOf_eq_some hins).1
    have hpipe : (finishExecute u).PipelineOk := by
      by_cases hinc : ∃ ea, i = .incAbs ea
      · obtain ⟨ea, rfl⟩ := hinc
        simp only [exec, execIncAbs] at hu
        cases hu
        refine finishExecute_pipelineOk e.1 e.2.1 ?_ ?_
        · intro _
          refine ⟨by rw [e.2.2]; exact hop.symm, ?_⟩
          split <;> exact hr
        · split
          · intro _; exact ⟨hr, rfl⟩
          · intro h; rw [show (incPhase1 s).writePending = s.writePending from rfl, hw] at h; cases h
      · have hn : ∀ ea, i ≠ .incAbs ea := fun ea h => hinc ⟨ea, h⟩
        have h2 : u.phase2 = false := by
          rw [exec_phase2 hi hu hn]
          cases h2 : s.phase2 with
          | false => rfl
          | true =>
            have := (hs.pipeline.phase2 h2).2
            rw [this] at hop
            exfalso
            cases i <;> simp [opcodeOf] at hop hinc
        refine finishExecute_pipelineOk e.1 e.2.1 (by simp [h2]) (fun h => ⟨?_, h2⟩)
        by_cases hsta : ∃ ea, i = .staAbs ea
        · obtain ⟨ea, rfl⟩ := hsta; cases hu; exact hr
        · rw [exec_writePending hi hu hn (fun ea h => hsta ⟨ea, h⟩), hw] at h; cases h
    refine inv_of_core ⟨hfin.mem.trans hc.mem, hfin.devices.trans hc.devices, hfin.queue.trans hc.queue,
        hfin.pending.trans hc.pending, fun a b => ?_, fun a => hfin.out (hc.out a)⟩ hs hr hpipe
    have := hc.fault a b
    unfold finishExecute
    split
    · exact this
    · split
      · exact ⟨this.1, this.2⟩
      · split <;> exact ⟨this.1, this.2⟩
  · rename_i hins
    cases h
    have hd : s.ir ∉ definedOpcodes := by
      intro hd
      obtain ⟨i, hi', -⟩ := instrOf_defined s.x s.mdr s.mar hd
      rw [instrAtExecute, hi'] at hins; cases hins
    have h2 : s.phase2 = false := by
      cases h2 : s.phase2 with
      | false => rfl
      | true => exact absurd ((hs.pipeline.phase2 h2).2 ▸ (by decide)) hd
    unfold execUndefined
    split
    · exact inv_of_core (finishExecute_core s) hs hr (finishExecute_pipelineOk hi hf (by simp [h2]) (by simp [hw]))
    · have e : finishExecute (raiseFault (.illegalOpcode s.ir) s) = raiseFault (.illegalOpcode s.ir) s :=
          by simp [finishExecute, raiseFault]
      have hp := finishExecute_pipelineOk (u := raiseFault (.illegalOpcode s.ir) s) hi hf (by simp [raiseFault, h2])
          (by simp [raiseFault, hw])
      rw [e] at hp ⊢
      exact inv_of_core (s := s) ⟨rfl, rfl, rfl, rfl, fun _ _ => faultOk_raise (.inr ⟨_, rfl, hd⟩), fun h => h⟩ hs hr hp

theorem idle_of_pipelineOk {s : State} (h : s.PipelineOk) (hs : s.step ≠ .decode ∨ s.firstPass = false) :
    s.mmuState = .idle := by
  cases hm : s.mmuState with
  | idle => rfl
  | lowPending => exact absurd hm h.lowPending
  | highPending => obtain ⟨h1, h2⟩ := h.highPending hm; rcases hs with hs | hs <;> simp_all

/-- At most so many pulses are left in the instruction (70_reset_and_hazards.md R289). -/
def pulsesLeft (s : State) : Nat := match s.step with
  | .fetch => 7
  | .decode => if s.firstPass then 5 else 6
  | .execute => if s.phase2 then 3 else 4
  | .writeback => 2
  | .interruptCheck => 1

/-- A pulse that brings the end of the instruction nearer, or hangs. -/
def PulseGood (s : State) (r : Result) : Prop := (∃ t, r = .next t ∧
    (atBoundary t = true ∨ pulsesLeft t < pulsesLeft s)) ∨ (r = .fault .stringNeverEnds ∧ ∀ b, isPrintable (s.mem.read b))

theorem pulsesLeft_finishExecute (u : State) : (finishExecute u).status ≠ .running ∨ pulsesLeft (finishExecute u) ≤
    (if u.phase2 then 3 else 2) := by
  unfold finishExecute
  split
  · exact .inl ‹_›
  · right
    split
    · simp [pulsesLeft, *]
    · split <;> simp [pulsesLeft, *]

theorem doExecute_good {s : State} (hs : s.Inv) (hi : s.mmuState = .idle) (hr : s.step = .decode ∨ s.step = .execute) :
    PulseGood s (doExecute s) := by
  have rk : ∀ u : State, (u.phase2 = true → s.phase2 = false) → atBoundary (finishExecute u) = true ∨ pulsesLeft
      (finishExecute u) < pulsesLeft s := by
    intro u h
    rcases pulsesLeft_finishExecute u with h' | h'
    · left; simp [atBoundary, h']
    · right
      have hrs : pulsesLeft s ≥ 3 ∧ (s.phase2 = false → pulsesLeft s ≥ 4) := by
        unfold pulsesLeft
        rcases hr with hr | hr <;> rw [hr] <;> simp <;> split <;> simp_all
      split at h'
      · have := hrs.2 (h ‹_›); omega
      · omega
  unfold doExecute
  split
  · rename_i i hins
    rcases exec_outcome (i := i) hi with ⟨t, ht⟩ | ⟨ht, hp⟩
    · rw [ht]
      refine .inl ⟨_, rfl, rk t fun h2 => ?_⟩
      by_cases hinc : ∃ ea, i = .incAbs ea
      · obtain ⟨ea, rfl⟩ := hinc
        cases hp : s.phase2 with
        | false => rfl
        | true =>
          simp only [exec, execIncAbs, hp] at ht
          cases ht
          simp [incPhase2] at h2
      · have hn : ∀ ea, i ≠ .incAbs ea := fun ea h => hinc ⟨ea, h⟩
        rw [exec_phase2 hi ht hn] at h2
        exfalso
        have hop := (instrOf_eq_some hins).1
        rw [(hs.pipeline.phase2 h2).2] at hop
        cases i <;> simp [opcodeOf] at hop hinc
    · rw [ht]; exact .inr ⟨rfl, hp⟩
  · rename_i hins
    refine .inl ⟨_, rfl, rk _ fun h2 => ?_⟩
    have : s.phase2 = true := by
      revert h2; unfold execUndefined; split <;> exact id
    have hd : s.ir ∉ definedOpcodes := by
      intro hd
      obtain ⟨i, hi', -⟩ := instrOf_defined s.x s.mdr s.mar hd
      rw [instrAtExecute, hi'] at hins; cases hins
    exact absurd ((hs.pipeline.phase2 this).2 ▸ (by decide)) hd

theorem doExecute_mem {s t : State} (hi : s.mmuState = .idle) (h : doExecute s = .next t) : t.mem = s.mem := by
  unfold doExecute at h
  split at h
  · obtain ⟨u, hu, hut⟩ := andThen_eq_next h
    cases hut
    exact (finishExecute_core u).mem.trans (exec_core hi hu).mem
  · cases h
    refine (finishExecute_core _).mem.trans ?_
    unfold execUndefined; split <;> rfl

end Sys2Proof.Machine
end

