-- ==== Sys2Proof/Laws/PerInstr.lean ====
section
/-! SUPPORT. The per-instruction family `Length`: what the decode step finds about an instruction's opcode agrees with the number
of operand bytes its encoding has (30_encoding.md R81, R82, R84). -/

namespace Sys2Proof.Laws.Length

/-- Wherever `i` is well formed, its opcode's class has as many operand bytes as `i` is encoded with. -/
def Statement (i : Instr) : Prop :=
  ∀ x : Byte, i.wellFormed x = true → operandBytes (classify (opcodeOf i) x) = (operandsOf i).length

/-- The class of a well-formed instruction decides its length. -/
theorem of_classify (i : Instr) : Statement i := by
  intro x h
  rcases classify_opcodeOf h with ⟨ho, hc | hc⟩ | ⟨b, ho, hc⟩ | ⟨lo, hi, ho, hc⟩ <;> rw [ho, hc] <;> rfl

theorem ldaImm (b1 : Byte) : Statement (.ldaImm b1) := of_classify _
theorem ldaAbs (ea : Addr) : Statement (.ldaAbs ea) := of_classify _
theorem txa : Statement .txa := of_classify _
theorem tya : Statement .tya := of_classify _
theorem ldxImm (b1 : Byte) : Statement (.ldxImm b1) := of_classify _
theorem ldxAbs (ea : Addr) : Statement (.ldxAbs ea) := of_classify _
theorem tax : Statement .tax := of_classify _
theorem ldyImm (b1 : Byte) : Statement (.ldyImm b1) := of_classify _
theorem ldyAbs (ea : Addr) : Statement (.ldyAbs ea) := of_classify _
theorem tay : Statement .tay := of_classify _
theorem staAbs (ea : Addr) : Statement (.staAbs ea) := of_classify _
theorem adcAbs (ea : Addr) : Statement (.adcAbs ea) := of_classify _
theorem incAbs (ea : Addr) : Statement (.incAbs ea) := of_classify _
theorem cpxAbs (ea : Addr) : Statement (.cpxAbs ea) := of_classify _
theorem bneRel (b1 : Byte) : Statement (.bneRel b1) := of_classify _
theorem sysImplied : Statement .sysImplied := of_classify _
theorem sysAbs (ea : Addr) : Statement (.sysAbs ea) := of_classify _
theorem brk : Statement .brk := of_classify _
theorem nop : Statement .nop := of_classify _

end Sys2Proof.Laws.Length
end

