-- ==== Sys2Proof/Tests/Slice0.lean ====
section
/-! SUPPORT. The model's own tests. Words and expected values are taken from the spec: the encodings from 30_encoding.md R81 and R85,
the vectors V-… from 95_test_vectors.md. The last part shows, for every statement that has hypotheses, states and operands that meet
them. -/

namespace Sys2Proof.Tests

open Sys2Proof Sys2Proof.Machine

/-- The next state of an answer. -/
def next? : Result → Option State
  | .next s => some s
  | .fault _ => none
  | .refused _ => none

/-- The reset state with a program image at 0x0000. -/
def booted (image : List Nat) : State := { State.reset with mem := imageMemory image }

/-- `booted` with X. -/
def bootedX (x : Byte) (image : List Nat) : State := { booted image with x := x }

/-- The reset state at the execute pulse of a two-operand instruction on address `ea`, whose byte is `m`. -/
def atExecute (op : Byte) (ea : Addr) (m : Byte) : State :=
  { State.reset with
    ir := op, mar := ea, mdr := m, pc := 0x0003#16, step := .execute, mem := Memory.write [] ea m }

/-- The token whose payload is number `k` of the OPEN type's enumeration. -/
def tok (k : Nat) : Token := ⟨Config.tokenPayload k, k, rfl⟩

/-! ### WellFormed: the one check, each form refused where it does not exist (R88) -/

theorem test_wellFormed_refuses_sysImplied_at_3 : Instr.wellFormed 3#8 .sysImplied = false := by decide
theorem test_wellFormed_refuses_sysAbs_at_1 : Instr.wellFormed 1#8 (.sysAbs 0x0008#16) = false := by decide
theorem test_wellFormed_refuses_sysAbs_at_2 : Instr.wellFormed 2#8 (.sysAbs 0x0008#16) = false := by decide

/-! ### Decoding: a word of every constructor, written out from R81 and R85 -/

theorem test_decode_ldaImm : decode 0#8 [0xA9#8, 0x05#8] = .ok (.ldaImm 0x05#8, []) := rfl
theorem test_decode_ldaAbs : decode 0#8 [0xAD#8, 0x34#8, 0x12#8] = .ok (.ldaAbs 0x1234#16, []) := rfl
theorem test_decode_txa : decode 0#8 [0x8A#8] = .ok (.txa, []) := rfl
theorem test_decode_tya : decode 0#8 [0x98#8] = .ok (.tya, []) := rfl
theorem test_decode_ldxImm : decode 0#8 [0xA2#8, 0xFF#8] = .ok (.ldxImm 0xFF#8, []) := rfl
theorem test_decode_ldxAbs : decode 0#8 [0xAE#8, 0x10#8, 0x00#8] = .ok (.ldxAbs 0x0010#16, []) := rfl
theorem test_decode_tax : decode 0#8 [0xAA#8] = .ok (.tax, []) := rfl
theorem test_decode_ldyImm : decode 0#8 [0xA0#8, 0x09#8] = .ok (.ldyImm 0x09#8, []) := rfl
theorem test_decode_ldyAbs : decode 0#8 [0xAC#8, 0x11#8, 0x00#8] = .ok (.ldyAbs 0x0011#16, []) := rfl
theorem test_decode_tay : decode 0#8 [0xA8#8] = .ok (.tay, []) := rfl
theorem test_decode_staAbs : decode 0#8 [0x8D#8, 0x30#8, 0x00#8] = .ok (.staAbs 0x0030#16, []) := rfl
theorem test_decode_adcAbs : decode 0#8 [0x6D#8, 0x30#8, 0x01#8] = .ok (.adcAbs 0x0130#16, []) := rfl
theorem test_decode_incAbs : decode 0#8 [0xEE#8, 0x20#8, 0x00#8] = .ok (.incAbs 0x0020#16, []) := rfl
theorem test_decode_cpxAbs : decode 0#8 [0xEC#8, 0x20#8, 0x00#8] = .ok (.cpxAbs 0x0020#16, []) := rfl
theorem test_decode_bneRel : decode 0#8 [0xD0#8, 0xF8#8] = .ok (.bneRel 0xF8#8, []) := rfl
theorem test_decode_sysImplied : decode 2#8 [0xFF#8, 0x08#8, 0x00#8] = .ok (.sysImplied, [0x08#8, 0x00#8]) := rfl
theorem test_decode_sysAbs : decode 3#8 [0xFF#8, 0x08#8, 0x00#8] = .ok (.sysAbs 0x0008#16, []) := rfl
theorem test_decode_brk : decode 0#8 [0x00#8] = .ok (.brk, []) := rfl
theorem test_decode_nop : decode 0#8 [0xEA#8] = .ok (.nop, []) := rfl
theorem test_decode_undefined : decode 0#8 [0x02#8, 0xA9#8] = .error (.undefinedOpcode 0x02#8) := rfl
theorem test_decode_truncated : decode 0#8 [0xAD#8, 0x34#8] = .error .truncated := rfl
theorem test_decodeTableWord_two_bytes : decodeTableWord 16 0x05A9 = some (.ldaImm 0x05#8) := by decide
theorem test_decodeTableWord_short : decodeTableWord 8 0xAD = some (.ldaAbs 0x0000#16) := by decide
theorem test_decodeTableWord_sys : decodeTableWord 8 0xFF = some .sysImplied ∧
    decodeTableWord 24 0x0008FF = some (.sysAbs 0x0008#16) := by decide
theorem test_withFetchWord_runs_it :
    (next? (step (State.reset.withFetchWord 24 0x1234AE))).map (fun t => (t.mar, t.pc)) = some (0x1234#16, 0x0003#16) := by
  decide

/-! ### Memory and MMU (V-M1 to V-M5) -/

theorem test_setMAR_reduces : (setMARInt 0x12345 State.reset).mar = 0x2345#16 ∧ (setMARInt (-1) State.reset).mar = 0xFFFF#16 := by
  decide
theorem test_roundtrip_literal_order : -- V-M3
    let t := memRead (setMAR 0x0100#16 (memWrite (setMDR 0x5A#8 State.reset)))
    t.mdr = 0x00#8 ∧ t.mem = [(0, 0x5A#8)] := by decide
theorem test_writing_the_default_unlists : Memory.write [(5, 0x11#8), (9, 0x22#8)] 5#16 0x00#8 = [(9, 0x22#8)] := by decide
theorem test_mmu_dereference : -- V-M4
    let s : State := { State.reset with mem := [(0x10, 0x34#8), (0x11, 0x12#8), (0x1234, 0xAB#8)] }
    let t := mmuRead (changeMAR 0x0011#16 (mmuRead (changeMAR 0x0010#16 (setLittleFlag s))))
    (t.mar, t.mdr, t.mmuLow, t.mmuState) = (0x1234#16, 0xAB#8, 0x34#8, .idle) := by decide

/-! ### Loads, transfers, store (V-L…) -/

theorem test_lda_imm : -- V-L1
    (next? (step (booted [0xA9, 0x05]))).map (fun t => (t.a, t.pc, t.mar, t.mdr, t.cycles)) =
      some (0x05#8, 0x0002#16, 0x0001#16, 0x05#8, 4) := by decide
theorem test_lda_zero_keeps_z : -- V-L2
    (next? (step { booted [0xA9, 0x00] with a := 0x37#8 })).map (fun t => (t.a, t.z)) = some (0x00#8, false) := by decide
theorem test_lda_abs : -- V-L4
    (next? (step { State.reset with mem := [(0, 0xAD#8), (1, 0x34#8), (2, 0x12#8), (0x1234, 0xAB#8)] })).map
      (fun t => (t.a, t.mar, t.mdr, t.pc, t.cycles)) = some (0xAB#8, 0x1234#16, 0xAB#8, 0x0003#16, 5) := by decide
theorem test_lda_abs_straddles_the_top : -- V-M7, P7
    (next? (step { State.reset with
      pc := 0xFFFF#16, mem := [(0, 0xD0#8), (1, 0xFD#8), (0xFDD0, 0x5A#8), (0xFFFF, 0xAD#8)] })).map
      (fun t => (t.a, t.pc)) = some (0x5A#8, 0x0002#16) := by decide
theorem test_txa : (next? (step (bootedX 0x5A#8 [0x8A]))).map (fun t => (t.a, t.x, t.cycles)) = some (0x5A#8, 0x5A#8, 3) := by
  decide -- V-L5
theorem test_tya : (next? (step { booted [0x98] with y := 0xC3#8 })).map (fun t => (t.a, t.y)) = some (0xC3#8, 0xC3#8) := by
  decide -- V-L6
theorem test_ldx_imm : (next? (step (booted [0xA2, 0xFF]))).map (·.x) = some 0xFF#8 := by decide -- V-L7
theorem test_ldx_abs : -- V-L8
    (next? (step { State.reset with mem := [(0, 0xAE#8), (1, 0x10#8), (0x10, 0x77#8)] })).map (·.x) = some 0x77#8 := by decide
theorem test_tax : (next? (step { booted [0xAA] with a := 0x09#8 })).map (·.x) = some 0x09#8 := by decide -- V-L9
theorem test_ldy_imm : (next? (step (booted [0xA0, 0x09]))).map (·.y) = some 0x09#8 := by decide -- V-L10
theorem test_ldy_abs : -- V-L11
    (next? (step { State.reset with mem := [(0, 0xAC#8), (1, 0x11#8), (0x11, 0x66#8)] })).map (·.y) = some 0x66#8 := by decide
theorem test_tay : (next? (step { booted [0xA8] with a := 0x80#8 })).map (·.y) = some 0x80#8 := by decide -- V-L12
theorem test_sta_abs : -- V-L14
    (next? (step { booted [0x8D, 0xFF, 0xFF] with a := 0x11#8 })).map (fun t => (t.mem.read 0xFFFF#16, t.writePending, t.cycles)) =
      some (0x11#8, false, 6) := by decide
theorem test_sta_over_itself : -- V-L15
    (next? (step { booted [0x8D, 0x01] with a := 0xEA#8 })).map (fun t => (t.mem, t.mar)) =
      some ([(0, 0x8D#8), (1, 0xEA#8)], 0x0001#16) := by decide

/-! ### Arithmetic (V-A…, V-I…) -/

theorem test_adc_rows : -- V-A1 to V-A9, V-A11
    [(0x7F#8, 0x01#8), (0x05#8, 0x03#8), (0x80#8, 0x80#8), (0xFF#8, 0x01#8), (0x80#8, 0xFF#8), (0x7F#8, 0x7F#8), (0xC0#8, 0xC0#8),
      (0x40#8, 0x40#8), (0x3F#8, 0x40#8), (0xFF#8, 0xFF#8)].map (fun p => (adcValue p.1 p.2, adcOverflow p.1 p.2)) =
    [(0x80#8, true), (0x08#8, false), (0x00#8, true), (0x00#8, false), (0x7F#8, true), (0xFE#8, true), (0x80#8, false),
      (0x80#8, true), (0x7F#8, false), (0xFE#8, false)] := by decide
theorem test_adc_abs : -- V-A1
    (next? (step { State.reset with a := 0x7F#8, mem := [(0, 0x6D#8), (1, 0x30#8), (0x30, 0x01#8)] })).map
      (fun t => (t.a, t.v, t.z, t.cycles)) = some (0x80#8, true, false, 5) := by decide
theorem test_inc_wraps : -- V-I1
    (next? (step { State.reset with mem := [(0, 0xEE#8), (1, 0x20#8), (0x20, 0xFF#8)] })).map
      (fun t => (t.a, t.v, t.mem.read 0x0020#16, t.mdr, t.mar, t.cycles)) =
      some (0x00#8, true, 0x00#8, 0x00#8, 0x0020#16, 7) := by decide
theorem test_inc_nowrap_parameter : -- V-I4, V-I3
    ((incPhase2 .keep { State.reset with a := 0x05#8, v := true }).v, (incPhase2 .clear { State.reset with a := 0x05#8, v := true }).v,
      incValue 0x05#8, incValue 0x7F#8, incOverflow .keep 0x7F#8 false) = (true, false, 0x06#8, 0x80#8, false) := by decide

/-! ### Compare and branch (V-C…, V-B…) -/

theorem test_cpx_abs : -- V-C1
    (next? (step { bootedX 0x05#8 [0xEC, 0x02, 0x00] with mem := [(0, 0xEC#8), (1, 0x20#8), (0x20, 0x05#8)] })).map (·.z) =
      some true := by decide
theorem test_cpx_clears : -- V-C2
    (next? (step { bootedX 0x05#8 [] with z := true, mem := [(0, 0xEC#8), (1, 0x20#8), (0x20, 0x06#8)] })).map (·.z) =
      some false := by decide
theorem test_bne_rows : -- V-B3, V-B4, V-B5, V-B6, V-B7
    (branchTarget 0x0002#16 0x7F#8, branchTarget 0x0102#16 0x80#8, branchTarget 0x0002#16 0xF0#8, branchTarget 0xFFF2#16 0x20#8,
      branchTarget 0x0006#16 0x00#8) = (0x0081#16, 0x0082#16, 0xFFF2#16, 0x0012#16, 0x0006#16) := by decide
theorem test_bne_taken_and_not : -- V-B1, V-B2
    let s : State := { State.reset with pc := 0x000E#16, mem := [(0x0E, 0xD0#8), (0x0F, 0xFE#8)] }
    (next? (step s)).map (·.pc) = some 0x000E#16 ∧ (next? (step { s with z := true })).map (·.pc) = some 0x0010#16 := by decide

/-! ### System (V-S…) -/

theorem test_sys_hex : -- V-S1
    (next? (step { bootedX 1#8 [] with y := 0x2A#8, pc := 0x0010#16, mem := [(0x10, 0xFF#8)] })).map
      (fun t => (t.out, t.pc, t.cycles)) = some ([.outHex 0x2A#8], 0x0011#16, 3) := by decide
theorem test_hex_text : hexText 0x2A#8 = ['0', '0', '2', 'A'] ∧ hexText 0x00#8 = ['0', '0', '0', '0'] ∧
    hexText 0xFF#8 = ['0', '0', 'F', 'F'] := by decide -- V-S1 to V-S3
theorem test_sys_two_under_reading_c : -- V-S4
    (next? (sysDispatch sys2ZeroPage { bootedX 2#8 [] with y := 0x20#8, mem := [(0x20, 0x48#8), (0x21, 0x49#8)] })).map
      (fun t => (t.out, t.mar, t.mdr)) = some ([.outChar 0x48#8, .outChar 0x49#8], 0x0022#16, 0x00#8) := by decide
theorem test_sys2_readings_differ : -- V-S5
    let s : State := { State.reset with mar := 0x01FF#16, pc := 0x0200#16, y := 0x20#8 }
    (sys2PcPage s, sys2MarPage s, sys2ZeroPage s) = (0x0220#16, 0x0120#16, 0x0020#16) := by decide
theorem test_sys_string : -- V-S6
    (next? (step { bootedX 3#8 [] with
      pc := 0x0002#16, mem := [(2, 0xFF#8), (3, 0x08#8), (8, 0x48#8), (9, 0x49#8)] })).map
      (fun t => (t.out, t.pc, t.mar, t.mdr, t.cycles)) =
      some ([.outChar 0x48#8, .outChar 0x49#8], 0x0005#16, 0x000A#16, 0x00#8, 5) := by decide
theorem test_sys_codec_fault : -- V-S8, with the pulse count of R289 and P9 (log 26)
    let s : State := { bootedX 3#8 [] with pc := 0x0002#16, mem := [(2, 0xFF#8), (3, 0x06#8), (6, 0x41#8), (7, 0x80#8)] }
    (next? (step s)).map (fun t => (t.out, t.status, t.faultReason)) =
        some ([.outChar 0x41#8], .faulted, some (.codecInvalidByte 0x80#8)) ∧
      (next? (step s)).map (fun t => (t.mar, t.mdr, t.pc, t.step, t.cycles)) =
        some (0x0007#16, 0x80#8, 0x0005#16, .execute, 4) := by decide
theorem test_sys_other_x : -- V-S9, V-S10
    (next? (step (bootedX 7#8 [0xFF, 0x34, 0x12]))).map (fun t => (t.out, t.mar, t.pc, t.cycles)) =
      some ([], 0x1234#16, 0x0003#16, 5) := by decide
theorem test_brk : -- V-S12
    (next? (step { State.reset with pc := 0x0002#16 })).map (fun t => (t.status, t.pc, t.mar, t.mdr, t.cycles)) =
      some (.halted, 0x0003#16, 0x0002#16, 0x00#8, 2) := by decide
theorem test_nop : -- V-S13
    (next? (step (booted [0xEA]))).map (fun t => (t.pc, t.a, t.mem, t.cycles)) = some (0x0001#16, 0x00#8, [(0, 0xEA#8)], 3) := by
  decide
theorem test_undefined_opcode : -- V-S14, V-S15
    execUndefined .nop { State.reset with ir := 0x02#8 } = { State.reset with ir := 0x02#8 } ∧
      (execUndefined .fault { State.reset with ir := 0x02#8 }).faultReason = some (.illegalOpcode 0x02#8) := by decide

/-! ### Interrupts (V-Q…) -/

theorem test_queue_ties : -- V-Q2
    enqueue (tok 3) 3 (enqueue (tok 2) 7 (enqueue (tok 1) 3 [])) = [(tok 2, 7), (tok 3, 3), (tok 1, 3)] := rfl
theorem test_nop_drains_one_token : -- V-Q8, P5
    (next? (step (hostActs [.acceptInterrupt (tok 1) 3, .acceptInterrupt (tok 2) 7] (booted [0xEA])))).map
      (fun t => (t.out, t.queue, t.pending, t.cycles)) = some ([.irq (tok 2) 7], [(tok 1, 3)], true, 3) := rfl
theorem test_addDevice_beyond_capacity : -- V-Q9
    (addDevice 1 ⟨2, 0, 0⟩ { State.reset with devices := [⟨1, 0, 0⟩] }).2 = some (.deviceCapacity ⟨2, 0, 0⟩) := by decide
theorem test_trace_record : -- V-T1, first row
    (next? (tick (booted [0xA9, 0x05, 0x00]))).map traceRecord =
      some ⟨1, 0xA9#8, 0x0001#16, 0x00#8, 0x00#8, 0x00#8, false, false, 0x0000#16, 0xA9#8, .decode⟩ := by decide

/-! ### Witnesses: states and operands that meet the hypotheses of each statement, clause by clause -/

theorem booted_ready (image : List Nat) : (booted image).Ready :=
  ⟨rfl, rfl, rfl, rfl, rfl, rfl, by simp [State.PendingOk, booted, State.reset]⟩

/-- The execute-pulse state of a two-operand instruction meets `AtExecute`. -/
theorem atExecute_meets (i : Instr) (ea : Addr) (m : Byte) (ho : operandsOf i = [loByte ea, hiByte ea])
    (hw : i.wellFormed 0#8 = true) : (atExecute (opcodeOf i) ea m).AtExecute i where
  opcode := rfl
  form := hw
  operands := by
    unfold State.SeesOperands
    rw [ho]
    simp [atExecute, Memory.read_write Memory.wf_nil]
  idle := rfl

theorem reset_inv : State.reset.Inv where
  mem := rfl
  pipeline := ⟨by decide, by decide, by decide, by decide, by decide⟩
  pending := by simp [State.PendingOk, State.reset]
  queue := by simp [priorityOrdered, State.reset]
  fault := ⟨by decide, by simp [State.reset]⟩
  out := by simp [State.OutOk, State.reset]
  devices := by simp [State.reset]

/-- The first `n` bytes `b`. -/
theorem filledTo_spec (n : Nat) (b : Byte) (hn : n = 65536) :
    (Memory.loadFrom [] 0 (List.replicate n b)).wf = true ∧ ∀ a, (Memory.loadFrom [] 0 (List.replicate n b)).read a = b := by
  have hl : 0 + (List.replicate n b).length ≤ 65536 := by rw [List.length_replicate]; omega
  refine ⟨Memory.loadFrom_wf Memory.wf_nil _ _ hl, fun a => ?_⟩
  have ha : a.toNat < n := by rw [hn]; exact a.isLt
  unfold Memory.read
  rw [Memory.lookup_loadFrom _ 0 Memory.wf_nil hl, List.length_replicate, if_pos ⟨Nat.zero_le _, by omega⟩]
  simp [List.getD_eq_getElem?_getD, ha]

/-- A memory that holds `b` everywhere. -/
theorem exists_filled (b : Byte) : ∃ m : Memory, m.wf = true ∧ ∀ a, m.read a = b := ⟨_, filledTo_spec _ b rfl⟩

theorem witness_DecodeOfEncodeIsIdentity :
    Instr.wellFormed 1#8 .sysImplied = true ∧ Instr.wellFormed 2#8 .sysImplied = true ∧
      Instr.wellFormed 0#8 (.sysAbs 0xFFFF#16) = true ∧ Instr.wellFormed 3#8 (.sysAbs 0x0000#16) = true ∧
      Instr.wellFormed 1#8 (.ldaAbs 0xFFFF#16) = true := by decide
theorem witness_EncodeOfDecodeIsIdentity : decode 1#8 [0xFF#8, 0x08#8] = .ok (.sysImplied, [0x08#8]) := rfl
theorem witness_UndefinedOpcodesRejectedByName : 0x02#8 ∉ definedOpcodes ∧ 0xFF#8 ∈ definedOpcodes := by decide
theorem witness_InstructionLengthFromOpcodeAndX :
    decode 1#8 (0xFF#8 :: []) = .ok (.sysImplied, []) ∧ decode 2#8 (0xFF#8 :: []) = .ok (.sysImplied, []) ∧
      decode 3#8 (0xFF#8 :: [0x00#8, 0x00#8]) = .ok (.sysAbs 0x0000#16, []) ∧
      decode 0#8 (0xD0#8 :: [0x80#8]) = .ok (.bneRel 0x80#8, []) ∧
      decode 0#8 (0xEE#8 :: [0xFF#8, 0xFF#8]) = .ok (.incAbs 0xFFFF#16, []) ∧ decode 0#8 (0x00#8 :: []) = .ok (.brk, []) :=
  ⟨rfl, rfl, rfl, rfl, rfl, rfl⟩
theorem witness_WriteThenReadReturnsTheByte : State.reset.mem.wf = true := rfl
theorem witness_MemoriesThatReadAlikeAreEqual :
    Memory.wf [(0, 0x01#8), (65535, 0xFF#8)] = true ∧
      ∀ a, Memory.read [(0, 0x01#8), (65535, 0xFF#8)] a = Memory.read [(0, 0x01#8), (65535, 0xFF#8)] a := ⟨rfl, fun _ => rfl⟩
theorem witness_MmuReadBySequencerState :
    State.reset.mmuState = .idle ∧ (setLittleFlag State.reset).mmuState = .lowPending ∧
      (mmuRead (setLittleFlag State.reset)).mmuState = .highPending := by decide
theorem witness_TwoDecodePulsesDereference :
    let s : State := { booted [0xAD, 0xFF, 0xFF] with ir := 0xAD#8, pc := 0x0001#16, step := .decode }
    s.status = .running ∧ s.step = .decode ∧ s.firstPass = false ∧ classify s.ir s.x = .two := by decide
theorem witness_FetchPulse :
    let s : State := { State.reset with pc := 0xFFFF#16 }
    s.status = .running ∧ s.step = .fetch ∧ s.mmuState = .idle ∧ s.pc = 0xFFFF#16 := by decide
theorem witness_OneOperandDecodePulse :
    let s : State := { booted [0xA9, 0x05] with ir := 0xA9#8, pc := 0x0001#16, step := .decode }
    s.status = .running ∧ s.step = .decode ∧ s.mmuState = .idle ∧ s.ir ∈ oneOperandSet := by decide
theorem witness_TwoOperandDecodePulses :
    let s : State := { bootedX 3#8 [0xFF, 0x08, 0x00] with ir := 0xFF#8, pc := 0x0001#16, step := .decode }
    let t : State := { s with pc := 0x0002#16, firstPass := true, mmuState := .highPending, mmuLow := 0x08#8 }
    (s.status = .running ∧ s.step = .decode ∧ s.ir ∈ twoOperandSet ∧ (s.ir = 0xFF#8 → s.x ≠ 1#8 ∧ s.x ≠ 2#8) ∧
      s.firstPass = false) ∧
    (t.status = .running ∧ t.step = .decode ∧ t.ir ∈ twoOperandSet ∧ (t.ir = 0xFF#8 → t.x ≠ 1#8 ∧ t.x ≠ 2#8) ∧
      t.firstPass = true ∧ t.mmuState = .highPending) := by decide
theorem witness_ExecuteWorkIsDispatchedOnIr :
    let s := atExecute 0xAD#8 0x1234#16 0xAB#8
    let t : State := { bootedX 2#8 [0xFF] with ir := 0xFF#8, pc := 0x0001#16, step := .decode }
    (s.status = .running ∧ s.step = .execute ∧ s.AtExecute (.ldaAbs 0x1234#16)) ∧
    (t.status = .running ∧ t.step = .decode ∧ t.ir = opcodeOf .sysImplied ∧ Instr.wellFormed t.x .sysImplied = true ∧
      operandsOf .sysImplied = []) :=
  ⟨⟨rfl, rfl, atExecute_meets (.ldaAbs 0x1234#16) 0x1234#16 0xAB#8 rfl rfl⟩, by decide⟩
theorem witness_NextStepAfterExecute :
    let s := State.reset
    (halt s).status ≠ .running ∧ (s.status = .running ∧ { s with phase2 := true }.phase2 = true) ∧
      ({ s with writePending := true }.phase2 = false ∧ { s with writePending := true }.writePending = true) ∧
      (s.phase2 = false ∧ s.writePending = false) := by decide
theorem witness_WritebackPulseStoresAtMar :
    let s : State := { atExecute 0x8D#8 0xFFFF#16 0x11#8 with step := .writeback, writePending := true }
    s.mem.wf = true ∧ s.status = .running ∧ s.step = .writeback ∧ s.writePending = true := by decide
theorem witness_InterruptCheckConsumesTheHead :
    let s : State := { State.reset with step := .interruptCheck }
    let t : State := { s with pending := true, queue := [(tok 1, 3)] }
    (s.status = .running ∧ s.step = .interruptCheck ∧ s.pending = false) ∧
      (t.status = .running ∧ t.step = .interruptCheck ∧ t.pending = true ∧ t.queue = (tok 1, 3) :: []) :=
  ⟨⟨rfl, rfl, rfl⟩, rfl, rfl, rfl, rfl⟩
theorem witness_NotRunningPulseChangesNothing : (halt State.reset).status ≠ .running := by decide
theorem witness_StepRunsDecodedInstruction :
    (booted [0xEE, 0x20, 0x00]).Ready ∧
      decode (booted [0xEE, 0x20, 0x00]).x (fetchBytes (booted [0xEE, 0x20, 0x00])) = .ok (.incAbs 0x0020#16, []) :=
  ⟨booted_ready _, rfl⟩
theorem witness_ExecuteSeesOperands :
    ((booted [0xAA]).Ready ∧ decode (booted [0xAA]).x (fetchBytes (booted [0xAA])) = .ok (.tax, [0x00#8, 0x00#8])) ∧
      ((booted [0xA9, 0x05]).Ready ∧
        decode (booted [0xA9, 0x05]).x (fetchBytes (booted [0xA9, 0x05])) = .ok (.ldaImm 0x05#8, [0x00#8])) ∧
      (booted [0xAD, 0xFF, 0xFF]).Ready ∧
        decode (booted [0xAD, 0xFF, 0xFF]).x (fetchBytes (booted [0xAD, 0xFF, 0xFF])) = .ok (.ldaAbs 0xFFFF#16, []) :=
  ⟨⟨booted_ready _, rfl⟩, ⟨booted_ready _, rfl⟩, booted_ready _, rfl⟩
theorem witness_UndefinedOpcodeFollowsThePolicy :
    (booted [0x02]).Ready ∧ (booted [0x02]).mem.read (booted [0x02]).pc ∉ definedOpcodes := ⟨booted_ready _, by decide⟩
theorem witness_PulsesPerInstruction :
    (booted [0xEA]).Ready ∧ decode (booted [0xEA]).x (fetchBytes (booted [0xEA])) = .ok (.nop, [0x00#8, 0x00#8]) ∧
      ∃ t, step (booted [0xEA]) = .next t ∧ t.status ≠ .faulted := ⟨booted_ready _, rfl, _, rfl, by decide⟩
theorem witness_LoadsWriteOnlyTheirRegister :
    (atExecute 0xAD#8 0xFFFF#16 0xAB#8).AtExecute (.ldaAbs 0xFFFF#16) ∧
      (atExecute 0xAE#8 0x0010#16 0x77#8).AtExecute (.ldxAbs 0x0010#16) ∧
      (atExecute 0xAC#8 0x0011#16 0x66#8).AtExecute (.ldyAbs 0x0011#16) :=
  ⟨atExecute_meets (.ldaAbs _) _ _ rfl rfl, atExecute_meets (.ldxAbs _) _ _ rfl rfl, atExecute_meets (.ldyAbs _) _ _ rfl rfl⟩
theorem witness_StoreCompletesInItsWriteback :
    (atExecute 0x8D#8 0xFFFF#16 0x11#8).AtExecute (.staAbs 0xFFFF#16) ∧ (atExecute 0x8D#8 0xFFFF#16 0x11#8).mem.wf = true :=
  ⟨atExecute_meets (.staAbs _) _ _ rfl rfl, by decide⟩
theorem witness_AdcIsSignedAdditionWithOverflow : (atExecute 0x6D#8 0x0030#16 0x80#8).AtExecute (.adcAbs 0x0030#16) :=
  atExecute_meets (.adcAbs _) _ _ rfl rfl
theorem witness_IncPhasesThroughA :
    let s := atExecute 0xEE#8 0x0020#16 0xFF#8
    let t : State := { s with a := 0xFF#8, phase2 := true }
    (s.AtExecute (.incAbs 0x0020#16) ∧ s.phase2 = false) ∧ (t.AtExecute (.incAbs 0x0020#16) ∧ t.phase2 = true) := by
  have h := atExecute_meets (.incAbs 0x0020#16) 0x0020#16 0xFF#8 rfl rfl
  exact ⟨⟨h, rfl⟩, ⟨h.1, h.2, h.3, h.4⟩, rfl⟩
theorem witness_CpxSetsZeroOnEquality : (atExecute 0xEC#8 0x0020#16 0x05#8).AtExecute (.cpxAbs 0x0020#16) :=
  atExecute_meets (.cpxAbs _) _ _ rfl rfl
theorem witness_BneBranchesWhenZeroIsClear : { State.reset with z := true }.z = true ∧ State.reset.z = false := by decide
theorem witness_SysOnePrintsYInHexAndOtherXNothing :
    (bootedX 1#8 [0xFF]).x = 0x01#8 ∧
      (atExecute 0xFF#8 0x1234#16 0xAB#8).AtExecute (.sysAbs 0x1234#16) ∧ (atExecute 0xFF#8 0x1234#16 0xAB#8).x ≠ 0x03#8 :=
  ⟨rfl, atExecute_meets (.sysAbs _) _ _ rfl rfl, by decide⟩
theorem witness_SysPrintsTerminatedString_two :
    let s := bootedX 2#8 []
    let a := Config.sys2Address (sys2View s)
    s.mmuState = .idle ∧ (∀ b ∈ ([] : List Byte), isPrintable b) ∧ holdsFrom s.mem a ([] ++ [0x00#8]) ∧ s.x = 0x02#8 :=
  ⟨rfl, by simp, ⟨rfl, trivial⟩, rfl⟩
theorem witness_SysPrintsTerminatedString_three :
    let s : State := { bootedX 3#8 [] with mem := [(65534, 0x48#8), (65535, 0x7F#8)], mar := 0xFFFE#16 }
    s.mmuState = .idle ∧ (∀ b ∈ [0x48#8, 0x7F#8], isPrintable b) ∧ holdsFrom s.mem s.mar ([0x48#8, 0x7F#8] ++ [0x00#8]) ∧
      s.x = 0x03#8 := ⟨rfl, by simp [isPrintable], ⟨rfl, rfl, rfl, trivial⟩, rfl⟩
theorem witness_Sys2ReadingsAgreeInPageZero :
    (let s : State := { State.reset with pc := 0x0001#16 }
     (0x0000#16).toNat < 0x00FF ∧ s.mar = 0x0000#16 ∧ s.pc = 0x0000#16 + 1#16) ∧
    (let s : State := { State.reset with mar := 0x00FE#16, pc := 0x00FF#16 }
     (0x00FE#16).toNat < 0x00FF ∧ s.mar = 0x00FE#16 ∧ s.pc = 0x00FE#16 + 1#16) := by decide
theorem witness_SysFaultsOnByteAbove7F_two :
    ∃ s : State, ∃ a, s.mmuState = .idle ∧ (∀ b ∈ ([] : List Byte), isPrintable b) ∧ 0x7F < (0x80#8).toNat ∧
      holdsFrom s.mem a ([] ++ [0x80#8]) ∧ s.x = 0x02#8 ∧ a = Config.sys2Address (sys2View s) := by
  obtain ⟨m, -, hm⟩ := exists_filled 0x80#8
  exact ⟨{ bootedX 2#8 [] with mem := m }, _, rfl, by simp, by decide, ⟨hm _, trivial⟩, rfl, rfl⟩
theorem witness_SysFaultsOnByteAbove7F_three :
    let s : State := { bootedX 3#8 [] with mem := [(6, 0x41#8), (7, 0x80#8)], mar := 0x0006#16 }
    s.mmuState = .idle ∧ (∀ b ∈ [0x41#8], isPrintable b) ∧ 0x7F < (0x80#8).toNat ∧ holdsFrom s.mem s.mar ([0x41#8] ++ [0x80#8]) ∧
      s.x = 0x03#8 := ⟨rfl, by simp [isPrintable], by decide, ⟨rfl, rfl, trivial⟩, rfl⟩
theorem witness_SysHangsExactlyWhenNothingStopsIt_two :
    ∃ s : State, s.mmuState = .idle ∧ s.x = 0x02#8 ∧ (∀ b, isPrintable (s.mem.read b)) ∧
      exec .sysImplied s = .fault .stringNeverEnds := by
  obtain ⟨m, -, hm⟩ := exists_filled 0x7F#8
  have h : ∀ b, isPrintable (m.read b) := fun b => by rw [hm]; simp [isPrintable]
  refine ⟨{ bootedX 2#8 [] with mem := m }, rfl, rfl, h, ?_⟩
  show execSysImplied _ = _
  rw [execSysImplied, sysDispatch_two _ rfl]
  exact (printString_fault rfl).2 h
theorem witness_SysHangsExactlyWhenNothingStopsIt_three :
    ∃ s : State, s.mmuState = .idle ∧ s.x = 0x03#8 ∧ (∀ b, isPrintable (s.mem.read b)) ∧
      exec (.sysAbs s.mar) s = .fault .stringNeverEnds := by
  obtain ⟨m, -, hm⟩ := exists_filled 0x01#8
  have h : ∀ b, isPrintable (m.read b) := fun b => by rw [hm]; simp [isPrintable]
  refine ⟨{ bootedX 3#8 [] with mem := m }, rfl, rfl, h, ?_⟩
  show execSysAbs _ = _
  rw [execSysAbs, sysDispatch_three _ rfl]
  exact (printString_fault rfl).2 h
theorem witness_BrkEndsTheRun : State.reset.Ready ∧ State.reset.mem.read State.reset.pc = 0x00#8 := ⟨booted_ready [], rfl⟩
theorem witness_StaWholeInstruction :
    let s := booted [0x8D, 0x30]
    s.Ready ∧ s.mem.wf = true ∧ decode s.x (fetchBytes s) = .ok (.staAbs 0x0030#16, []) := ⟨booted_ready _, rfl, rfl⟩
theorem witness_IncWholeInstruction :
    let s : State := booted [0xEE, 0x02, 0x00]
    s.Ready ∧ s.mem.wf = true ∧ decode s.x (fetchBytes s) = .ok (.incAbs 0x0002#16, []) := ⟨booted_ready _, rfl, rfl⟩
theorem witness_OnlyBneLeavesTheSequence :
    let s := booted [0xD0, 0x80]
    s.Ready ∧ decode s.x (fetchBytes s) = .ok (.bneRel 0x80#8, [0x00#8]) ∧ s.z = false ∧
      ∃ t, step s = .next t ∧ t.pc = 0xFF82#16 := ⟨booted_ready _, rfl, rfl, _, rfl, rfl⟩
theorem witness_RegistersHaveOnlyTheirListedWriters_axy :
    (∃ t, step (booted [0xA9, 0x05]) = .next t ∧ t.a ≠ (booted [0xA9, 0x05]).a) ∧
      (∃ t, step (booted [0xA2, 0xFF]) = .next t ∧ t.x ≠ (booted [0xA2, 0xFF]).x) ∧
      (∃ t, step (booted [0xA0, 0x09]) = .next t ∧ t.y ≠ (booted [0xA0, 0x09]).y) :=
  ⟨⟨_, rfl, by decide⟩, ⟨_, rfl, by decide⟩, ⟨_, rfl, by decide⟩⟩
theorem witness_RegistersHaveOnlyTheirListedWriters_flags :
    (∃ t, step (bootedX 0xEC#8 [0xEC]) = .next t ∧ t.z ≠ (bootedX 0xEC#8 [0xEC]).z) ∧
      (∃ t, step { booted [0x6D, 0x01] with a := 0x7F#8 } = .next t ∧ t.v ≠ (booted [0x6D, 0x01]).v) :=
  ⟨⟨_, rfl, by decide⟩, ⟨_, rfl, by decide⟩⟩
theorem witness_OnlyStaAndIncChangeMemory :
    let s := booted [0xEE, 0x00, 0x00]
    s.Ready ∧ s.mem.wf = true ∧ decode s.x (fetchBytes s) = .ok (.incAbs 0x0000#16, []) ∧
      ∃ t, step s = .next t ∧ t.mem.read 0x0000#16 ≠ s.mem.read 0x0000#16 := ⟨booted_ready _, rfl, rfl, _, rfl, by decide⟩
/-- STA into the next opcode byte, which is then fetched. -/
theorem witness_StoreIsSeenByEveryLaterFetch_sta :
    let s : State := { booted [0x8D, 0x03] with a := 0xEA#8 }
    s.Ready ∧ s.mem.wf = true ∧ decode s.x (fetchBytes s) = .ok (.staAbs 0x0003#16, []) ∧
      ∃ t, step s = .next t ∧ stepsWithoutStoreTo 0x0003#16 0 t t ∧ t.status = .running ∧ t.pc = 0x0003#16 ∧
        decode t.x (fetchBytes t) = .ok (.nop, [0x00#8, 0x00#8]) :=
  ⟨⟨rfl, rfl, rfl, rfl, rfl, rfl, by simp [State.PendingOk, booted, State.reset]⟩, rfl, rfl, _, rfl, rfl, rfl, rfl, rfl⟩
/-- INC of an operand byte of the instruction after the next, with the NOP between as the one step that stores nothing. -/
theorem witness_StoreIsSeenByEveryLaterFetch_inc :
    let s := booted [0xEE, 0x05, 0x00, 0xEA, 0xA9, 0x41]
    s.Ready ∧ s.mem.wf = true ∧ decode s.x (fetchBytes s) = .ok (.incAbs 0x0005#16, []) ∧
      ∃ t w, step s = .next t ∧ stepsWithoutStoreTo 0x0005#16 1 t w ∧ w.status = .running ∧
        decode w.x (fetchBytes w) = .ok (.ldaImm 0x42#8, [0x00#8]) ∧ w.pc + BitVec.ofNat 16 1 = 0x0005#16 := by
  refine ⟨booted_ready _, rfl, rfl, _, _, rfl, ⟨?_, _, rfl, rfl⟩, rfl, rfl, rfl⟩
  rintro ⟨rest, h | h⟩ <;> exact absurd (h.symm.trans (rfl : _ = Except.ok (Instr.nop, [0xA9#8, 0x42#8]))) (by simp)
theorem witness_EnqueueInsertsBeforeTheFirstNotGreater :
    priorityOrdered [] ∧ priorityOrdered [(tok 2, 7), (tok 3, 3), (tok 1, 3)] := by simp [priorityOrdered]
theorem witness_QueueIsPriorityOrderTiesMostRecentFirst : State.reset.queue = [] := rfl
theorem witness_AcceptAndSupplyTouchOnlyTheQueue :
    (acceptInterrupt (tok 1) 3 State.reset).queue = (tok 1, 3) :: [] ∧
      (acceptInterrupt (tok 2) 3 (acceptInterrupt (tok 1) 3 State.reset)).queue = (tok 2, 3) :: [(tok 1, 3)] := ⟨rfl, rfl⟩
theorem witness_PendingTracksTheQueue :
    State.reset.PendingOk ∧ (acceptInterrupt (tok 1) 3 State.reset).PendingOk ∧
      ∃ s', supplyInterrupt (acceptInterrupt (tok 1) 3 State.reset) = some ((tok 1, 3), s') :=
  ⟨by simp [State.PendingOk, State.reset], by simp [State.PendingOk, acceptInterrupt, enqueue, State.reset], _, rfl⟩
theorem witness_AddDeviceUpToCapacity : State.reset.devices.length < 1 ∧ 0 ≤ State.reset.devices.length := by decide
theorem witness_StopRequestOnlyStops : State.reset.status = .running ∧ (halt State.reset).status ≠ .running := by decide
theorem witness_EndedRunNeverChanges : (stopRequest State.reset).status ≠ .running := by decide
theorem witness_TokensNeverChangeTheRun :
    State.reset.PendingOk ∧ ∀ acts ∈ [[HostAction.acceptInterrupt (tok 1) 3, .keypress (tok 2)], []], HostAction.stop ∉ acts :=
  ⟨by simp [State.PendingOk, State.reset], by decide⟩
theorem witness_BootLoadsAnImageThatFits :
    ((List.replicate 65536 255).length ≤ 65536 ∧ ∀ b ∈ List.replicate 65536 255, b < 256) ∧
      ¬ ([256].length ≤ 65536 ∧ ∀ b ∈ [256], b < 256) ∧
      ¬ ((List.replicate 65537 0).length ≤ 65536 ∧ ∀ b ∈ List.replicate 65537 0, b < 256) := by
  refine ⟨⟨?_, fun b hb => ?_⟩, by decide, fun h => ?_⟩
  · rw [List.length_replicate]
  · rw [List.eq_of_mem_replicate hb]
    decide
  · have := h.1
    rw [List.length_replicate] at this
    omega
theorem witness_ResetAndBootMeetTheInvariant : ∃ s, boot [0xA9, 0x05, 0x00] = .next s := ⟨_, rfl⟩
theorem witness_PulseKeepsTheInvariant : State.reset.Inv ∧ ∃ t, pulse State.reset = .next t := ⟨reset_inv, _, rfl⟩
theorem witness_StepKeepsTheInvariant : State.reset.Inv ∧ ∃ t, step State.reset = .next t := ⟨reset_inv, _, rfl⟩
theorem witness_HostKeepsTheInvariant : State.reset.Inv := reset_inv
/-- Both cases of StepAlwaysCompletes. The hanging one is met by an execute pulse of SYS over a memory of printable bytes; 0xFF itself
is none, so no fetch leads there. -/
theorem witness_StepAlwaysCompletes :
    State.reset.Inv ∧ ∃ s : State, s.Inv ∧ s.step = .execute ∧ s.ir = 0xFF#8 ∧ s.x = 0x03#8 ∧
      ∀ b, isPrintable (s.mem.read b) := by
  obtain ⟨m, hwf, hm⟩ := exists_filled 0x41#8
  refine ⟨reset_inv, { bootedX 3#8 [] with mem := m, ir := 0xFF#8, step := .execute }, ?_, rfl, rfl, rfl, fun b => ?_⟩
  · exact {
      mem := hwf
      pipeline := ⟨by simp [bootedX, booted, State.reset], by simp [bootedX, booted, State.reset],
        by simp [bootedX, booted, State.reset], by simp [bootedX, booted, State.reset], by simp [bootedX, booted, State.reset]⟩
      pending := by simp [State.PendingOk, bootedX, booted, State.reset]
      queue := by simp [priorityOrdered, bootedX, booted, State.reset]
      fault := ⟨by simp [bootedX, booted, State.reset], by simp [bootedX, booted, State.reset]⟩
      out := by simp [State.OutOk, bootedX, booted, State.reset]
      devices := by simp [bootedX, booted, State.reset] }
  · show isPrintable (m.read b)
    rw [hm]
    simp [isPrintable]

end Sys2Proof.Tests
end

section
/-! PROOFS. The family of 10_state.md: the reset state, canonical memories, the writers of the registers, and the invariant
through every pulse and every step. -/

namespace Sys2Proof.Proofs.StateFamily

open Sys2Proof Sys2Proof.Machine

/-! ### The controller bits by the step (10_state.md R30 to R34, R40) -/

/-- With the MMU idle and no controller bit set, every step register value is consistent. -/
theorem pipelineOk_of_clear {s : State} (hi : s.mmuState = .idle) (hf : s.firstPass = false) (hp : s.phase2 = false)
    (hw : s.writePending = false) : s.PipelineOk :=
  ⟨by simp [hf], by simp [hp], by simp [hw], by simp [hi], by simp [hi]⟩

theorem firstPass_eq_false {s : State} (h : s.PipelineOk) (hs : s.step ≠ .decode ∨ classify s.ir s.x ≠ .two) :
    s.firstPass = false := by
  by_contra hf
  obtain ⟨hstep, -, hclass⟩ := h.firstPass (by simpa using hf)
  rcases hs with hs | hs
  · exact hs hstep
  · exact hs hclass

theorem phase2_eq_false {s : State} (h : s.PipelineOk) (hs : s.step ≠ .execute) : s.phase2 = false := by
  by_contra hp
  exact hs (h.phase2 (by simpa using hp)).1

theorem writePending_eq_false {s : State} (h : s.PipelineOk) (hs : s.step ≠ .writeback) : s.writePending = false := by
  by_contra hw
  exact hs (h.writePending (by simpa using hw))

/-- A step register that moves on from a step in which no controller bit was set leaves a consistent controller. -/
theorem pipelineOk_of_sameBits {s t : State} (h : s.PipelineOk) (hf : s.firstPass = false) (he : s.step ≠ .execute)
    (hw : s.step ≠ .writeback) (hmmu : t.mmuState = s.mmuState) (hfirst : t.firstPass = s.firstPass)
    (hphase : t.phase2 = s.phase2) (hpending : t.writePending = s.writePending) : t.PipelineOk :=
  pipelineOk_of_clear (hmmu.trans (idle_of_pipelineOk h (.inr hf))) (hfirst.trans hf)
    (hphase.trans (phase2_eq_false h he)) (hpending.trans (writePending_eq_false h hw))

/-! ### The invariant through each pulse (10_state.md R40) -/

/-- A state that differs from one that meets the invariant only in the registers and the controller meets it if its controller
is consistent. -/
theorem inv_of_sameData {s t : State} (hs : s.Inv) (hmem : t.mem = s.mem) (hdev : t.devices = s.devices)
    (hpend : t.pending = s.pending) (hqueue : t.queue = s.queue) (hstat : t.status = s.status)
    (hreason : t.faultReason = s.faultReason) (hout : t.out = s.out) (hp : t.PipelineOk) : t.Inv where
  mem := hmem ▸ hs.mem
  pipeline := hp
  pending := pendingOk_of_keepsInterrupts ⟨hqueue, hpend, hdev⟩ hs.pending
  queue := hqueue ▸ hs.queue
  fault := ⟨by rw [hstat, hreason]; exact hs.fault.present, by rw [hreason]; exact hs.fault.reason⟩
  out := by unfold State.OutOk; rw [hout]; exact hs.out
  devices := hdev ▸ hs.devices

/-- Counting a pulse keeps the invariant. -/
theorem countPulse_inv {s : State} (hs : s.Inv) : (countPulse s).Inv :=
  have hp := hs.pipeline
  inv_of_sameData hs rfl rfl rfl rfl rfl rfl rfl ⟨hp.firstPass, hp.phase2, hp.writePending, hp.highPending, hp.lowPending⟩

/-- A fetch keeps the invariant (40_pipeline.md R102). -/
theorem doFetch_inv {s : State} (hs : s.Inv) (hstep : s.step = .fetch) : (doFetch s).Inv := by
  have hp := hs.pipeline
  have hf := firstPass_eq_false hp (.inl (by simp [hstep]))
  rw [doFetch_idle (idle_of_pipelineOk hp (.inr hf))]
  exact inv_of_sameData hs rfl rfl rfl rfl rfl rfl rfl
    (pipelineOk_of_sameBits hp hf (by simp [hstep]) (by simp [hstep]) rfl rfl rfl rfl)

/-- The decode pulse of a one-operand opcode keeps the invariant (R106). -/
theorem decodeOne_inv {s : State} (hs : s.Inv) (hstep : s.step = .decode) (hclass : classify s.ir s.x = .one) :
    (decodeOne s).Inv := by
  have hp := hs.pipeline
  have hf := firstPass_eq_false hp (.inr (by simp [hclass]))
  rw [decodeOne_idle (idle_of_pipelineOk hp (.inr hf))]
  exact inv_of_sameData hs rfl rfl rfl rfl rfl rfl rfl
    (pipelineOk_of_sameBits hp hf (by simp [hstep]) (by simp [hstep]) rfl rfl rfl rfl)

/-- The first decode pulse of a two-operand opcode keeps the invariant (R107). -/
theorem decodeTwoFirst_inv {s : State} (hs : s.Inv) (hstep : s.step = .decode) (hclass : classify s.ir s.x = .two) :
    (decodeTwoFirst s).Inv := by
  have hp := hs.pipeline
  rw [decodeTwoFirst_eq]
  exact inv_of_sameData hs rfl rfl rfl rfl rfl rfl rfl
    ⟨fun _ => ⟨hstep, rfl, hclass⟩, hp.phase2, hp.writePending, fun _ => ⟨hstep, rfl⟩, by simp⟩

/-- The second decode pulse of a two-operand opcode keeps the invariant (R108). -/
theorem decodeTwoSecond_inv {s : State} (hs : s.Inv) (hstep : s.step = .decode) (hf : s.firstPass = true) :
    (decodeTwoSecond s).Inv := by
  obtain ⟨-, hhigh, -⟩ := hs.pipeline.firstPass hf
  have h2 := phase2_eq_false hs.pipeline (by simp [hstep])
  have hw := writePending_eq_false hs.pipeline (by simp [hstep])
  rw [decodeTwoSecond_high hhigh]
  exact inv_of_sameData hs rfl rfl rfl rfl rfl rfl rfl (pipelineOk_of_clear rfl rfl h2 hw)

/-- The execute work of a decode or an execute pulse, outside a pair of decode pulses, keeps the invariant (R109, R110). -/
theorem executeWork_inv {s t : State} (hs : s.Inv) (hr : s.status = .running) (hf : s.firstPass = false)
    (hstep : s.step ≠ .writeback) (h : doExecute s = .next t) : t.Inv :=
  doExecute_inv hs hr (idle_of_pipelineOk hs.pipeline (.inr hf)) hf (writePending_eq_false hs.pipeline hstep) h

/-- A decode pulse keeps the invariant, whatever the class of the opcode (R103). -/
theorem doDecode_inv {s t : State} (hs : s.Inv) (hr : s.status = .running) (hstep : s.step = .decode)
    (h : doDecode s = .next t) : t.Inv := by
  have executes (hz : classify s.ir s.x = .zero ∨ classify s.ir s.x = .implied) : t.Inv := by
    have hf := firstPass_eq_false hs.pipeline (.inr (by rcases hz with hz | hz <;> simp [hz]))
    rw [doDecode_zero hz] at h
    exact executeWork_inv hs hr hf (by simp [hstep]) h
  cases hclass : classify s.ir s.x with
  | zero => exact executes (.inl hclass)
  | implied => exact executes (.inr hclass)
  | one =>
    rw [doDecode_one hclass] at h
    cases h
    exact decodeOne_inv hs hstep hclass
  | two =>
    rw [doDecode_two hclass] at h
    cases h
    split
    · exact decodeTwoSecond_inv hs hstep ‹_›
    · exact decodeTwoFirst_inv hs hstep hclass

/-- A writeback pulse keeps the invariant (R111). -/
theorem doWriteback_inv {s : State} (hs : s.Inv) (hstep : s.step = .writeback) : (doWriteback s).Inv := by
  have hp := hs.pipeline
  have hf := firstPass_eq_false hp (.inl (by simp [hstep]))
  have hi := idle_of_pipelineOk hp (.inr hf)
  have h2 := phase2_eq_false hp (by simp [hstep])
  unfold doWriteback
  split
  · exact ⟨Memory.write_wf hs.mem _ _, pipelineOk_of_clear hi hf h2 rfl, hs.pending, hs.queue,
      ⟨hs.fault.present, hs.fault.reason⟩, hs.out, hs.devices⟩
  · exact inv_of_sameData hs rfl rfl rfl rfl rfl rfl rfl (pipelineOk_of_clear hi hf h2 rfl)

/-- An interrupt check that answers a next state consumed the head of the queue, or found nothing pending (R112). -/
theorem doInterruptCheck_eq_next {s t : State} (h : doInterruptCheck s = .next t) :
    t = { s with step := .fetch } ∨
      ∃ e rest, s.queue = e :: rest ∧
        t = { s with step := .fetch, queue := rest, pending := t.pending, out := s.out ++ [.irq e.1 e.2] } := by
  unfold doInterruptCheck at h
  split at h
  · cases hq : s.queue with
    | nil => simp [supplyInterrupt, dequeue, hq] at h
    | cons e rest =>
      simp only [supplyInterrupt, dequeue, hq] at h
      cases h
      exact .inr ⟨e, rest, rfl, rfl⟩
  · cases h
    exact .inl rfl

/-- An interrupt check keeps the invariant (R112, 60_exceptions.md R252). -/
theorem doInterruptCheck_inv {s t : State} (hs : s.Inv) (hstep : s.step = .interruptCheck)
    (h : doInterruptCheck s = .next t) : t.Inv := by
  have hp := hs.pipeline
  have hf := firstPass_eq_false hp (.inl (by simp [hstep]))
  have hpend := doInterruptCheck_pendingOk hs.pending h
  rcases doInterruptCheck_eq_next h with rfl | ⟨e, rest, hq, ht⟩
  · exact inv_of_sameData hs rfl rfl rfl rfl rfl rfl rfl
      (pipelineOk_of_sameBits hp hf (by simp [hstep]) (by simp [hstep]) rfl rfl rfl rfl)
  · have hqueue : priorityOrdered rest := (List.pairwise_cons.1 (hq ▸ hs.queue)).2
    have hout : ∀ b, .outChar b ∈ s.out ++ [.irq e.1 e.2] → b ≠ 0x00#8 ∧ b.toNat ≤ 0x7F :=
      outOk_append hs.out (by simp)
    rw [ht] at hpend ⊢
    exact ⟨hs.mem, pipelineOk_of_sameBits hp hf (by simp [hstep]) (by simp [hstep]) rfl rfl rfl rfl, hpend,
      hqueue, ⟨hs.fault.present, hs.fault.reason⟩, hout, hs.devices⟩

/-- The work of any step keeps the invariant (R100, R101). -/
theorem stepWork_inv {s t : State} (hs : s.Inv) (hr : s.status = .running) (h : stepWork s = .next t) : t.Inv := by
  unfold stepWork at h
  cases hstep : s.step <;> rw [hstep] at h
  case fetch => cases h; exact doFetch_inv hs hstep
  case decode => exact doDecode_inv hs hr hstep h
  case execute =>
    exact executeWork_inv hs hr (firstPass_eq_false hs.pipeline (.inl (by simp [hstep]))) (by simp [hstep]) h
  case writeback => cases h; exact doWriteback_inv hs hstep
  case interruptCheck => exact doInterruptCheck_inv hs hstep h

/-- A pulse keeps the invariant: it does the work of its step, or nothing once the run has ended (R124). -/
theorem pulse_inv {s t : State} (hs : s.Inv) (h : pulse s = .next t) : t.Inv := by
  by_cases hr : s.status = .running
  · rw [pulse_running hr] at h
    exact stepWork_inv (countPulse_inv hs) hr h
  · rw [pulse_ended hr] at h
    cases h
    exact hs

/-- Ticks up to the next boundary keep the invariant. -/
theorem ticksToBoundary_inv {n : Nat} {s t : State} (hs : s.Inv) (h : ticksToBoundary n s = .next t) : t.Inv := by
  induction n generalizing s with
  | zero => cases h; exact hs
  | succ n ih =>
    rw [ticksToBoundary_succ] at h
    obtain ⟨u, hu, hut⟩ := andThen_eq_next h
    have hinv := pulse_inv hs hu
    unfold goOn at hut
    split at hut
    · cases hut; exact hinv
    · exact ih hinv hut

/-- Settles O58: a step is a run of pulses, by induction on their number, each of which keeps the invariant. -/
theorem stepKeepsTheInvariant : Obligations.StepKeepsTheInvariant :=
  fun _ _ hs h => ticksToBoundary_inv hs h

/-- Settles O57, by cases on the step register. -/
theorem pulseKeepsTheInvariant : Obligations.PulseKeepsTheInvariant :=
  fun _ _ hs h => pulse_inv hs h

/-! ### Canonical memories (20_memory.md R50; log 3) -/

/-- Settles O8: reads cover every address below 65536, and above it a canonical memory lists nothing. -/
theorem memoriesThatReadAlikeAreEqual : Obligations.MemoriesThatReadAlikeAreEqual := by
  intro m m' h h' hread
  refine Memory.eq_of_lookup_eq h h' fun n => ?_
  by_cases hn : n < 65536
  · simpa [Memory.read, Nat.mod_eq_of_lt hn] using hread (BitVec.ofNat 16 n)
  · rw [Memory.lookup_above h (by omega), Memory.lookup_above h' (by omega)]

/-! ### The writers of the registers (10_state.md R21 to R28) -/

/-- From `s` to `t` each register and flag changed only if `i` is one of its listed writers. -/
def ChangesOnlyListed (i : Instr) (s t : State) : Prop :=
  (t.a ≠ s.a → opcodeOf i ∈ [0xA9#8, 0xAD#8, 0x8A#8, 0x98#8, 0x6D#8, 0xEE#8]) ∧
  (t.x ≠ s.x → opcodeOf i ∈ [0xA2#8, 0xAE#8, 0xAA#8]) ∧
  (t.y ≠ s.y → opcodeOf i ∈ [0xA0#8, 0xAC#8, 0xA8#8]) ∧
  (t.z ≠ s.z → opcodeOf i = 0xEC#8) ∧
  (t.v ≠ s.v → opcodeOf i ∈ [0x6D#8, 0xEE#8])

/-- The registers and flags an instruction computes with are the same. -/
def SameRegisters (s t : State) : Prop := t.a = s.a ∧ t.x = s.x ∧ t.y = s.y ∧ t.z = s.z ∧ t.v = s.v

/-- Work before and after that keeps the registers adds no writer. -/
theorem changesOnlyListed_between {i : Instr} {s d u t : State} (hsd : SameRegisters s d) (h : ChangesOnlyListed i d u)
    (hut : SameRegisters u t) : ChangesOnlyListed i s t := by
  obtain ⟨ha, hx, hy, hz, hv⟩ := hsd
  obtain ⟨ha', hx', hy', hz', hv'⟩ := hut
  unfold ChangesOnlyListed at *
  rwa [ha', hx', hy', hz', hv', ← ha, ← hx, ← hy, ← hz, ← hv]

theorem changesOnlyListed_of_same {i : Instr} {s t : State} (h : SameRegisters s t) : ChangesOnlyListed i s t := by
  obtain ⟨ha, hx, hy, hz, hv⟩ := h
  simp [ChangesOnlyListed, ha, hx, hy, hz, hv]

/-- SYS writes no register and no flag (44_system.md R210). -/
theorem sysDispatch_sameRegisters {f : State → Addr} {s t : State} (hi : s.mmuState = .idle)
    (h : sysDispatch f s = .next t) : SameRegisters s t := by
  rw [sysDispatch_frame hi h]
  exact ⟨rfl, rfl, rfl, rfl, rfl⟩

/-- The execute work of an instruction writes only what the lists give it. -/
theorem exec_changesOnlyListed {i : Instr} {s t : State} (hi : s.mmuState = .idle) (h : exec i s = .next t) :
    ChangesOnlyListed i s t := by
  cases i
  case sysImplied => exact changesOnlyListed_of_same (sysDispatch_sameRegisters hi h)
  case sysAbs => exact changesOnlyListed_of_same (sysDispatch_sameRegisters hi h)
  case bneRel =>
    simp only [exec, execBneRel] at h
    cases h
    split <;> exact changesOnlyListed_of_same ⟨rfl, rfl, rfl, rfl, rfl⟩
  case incAbs =>
    simp only [exec, execIncAbs] at h
    cases h
    split <;> simp [ChangesOnlyListed, opcodeOf, incPhase1, incPhase2]
  all_goals
    cases h
    simp [ChangesOnlyListed, opcodeOf, halt]

/-- So do both phases together, and none is left open. -/
theorem executePhases_changesOnlyListed {i : Instr} {s t : State} (hr : s.status = .running) (hi : s.mmuState = .idle)
    (hp : s.phase2 = false) (h : executePhases i s = .next t) : ChangesOnlyListed i s t ∧ t.phase2 = false := by
  by_cases hinc : ∃ ea, i = .incAbs ea
  · obtain ⟨ea, rfl⟩ := hinc
    rw [executePhases_inc hr hp] at h
    cases h
    exact ⟨by simp [ChangesOnlyListed, opcodeOf], hp⟩
  · have hn : ∀ ea, i ≠ .incAbs ea := fun ea he => hinc ⟨ea, he⟩
    rw [executePhases_other hi hp hn] at h
    exact ⟨exec_changesOnlyListed hi h, (exec_phase2 hi h hn).trans hp⟩

/-- The pulses after the execute work write no register and no flag. -/
theorem endInstruction_sameRegisters {s t : State} (hp : s.phase2 = false) (h : endInstruction s = .next t) :
    SameRegisters s t := by
  by_cases hr : s.status = .running
  · rw [endInstruction_frame h hr hp]
    exact ⟨rfl, rfl, rfl, rfl, rfl⟩
  · rw [endInstruction_ended hr] at h
    cases h
    exact ⟨rfl, rfl, rfl, rfl, rfl⟩

/-- The fetch and decode pulses write no register and no flag. -/
theorem delivered_sameRegisters (i : Instr) (s : State) : SameRegisters s (s.delivered i) := by
  rw [delivered_frame]
  exact ⟨rfl, rfl, rfl, rfl, rfl⟩

/-- A step of a ready machine is the delivered execute work, then the end of the instruction. -/
theorem step_eq_phases {s : State} {i : Instr} {rest : List Byte} (hr : s.Ready)
    (hd : decode s.x (fetchBytes s) = .ok (i, rest)) :
    step s = andThen (executePhases i (s.delivered i)) endInstruction := by
  obtain ⟨n, hn⟩ := ticksToBoundary_execute hr hd
  obtain ⟨-, hp, -⟩ := delivered_fields i hr
  exact hn.trans (execute_goOn (delivered_atExecute hr (decode_at_pc hd).1) hp)

/-- Settles O41: of an instruction's pulses only those of its execute work write a register or a flag. -/
theorem registersHaveOnlyTheirListedWriters : Obligations.RegistersHaveOnlyTheirListedWriters := by
  intro s t i rest hr hd h
  rw [step_eq_phases hr hd] at h
  obtain ⟨u, hu, hut⟩ := andThen_eq_next h
  obtain ⟨hrun, hp, -, hi, -⟩ := delivered_fields i hr
  obtain ⟨hlisted, hup⟩ := executePhases_changesOnlyListed hrun hi hp hu
  exact changesOnlyListed_between (delivered_sameRegisters i s) hlisted (endInstruction_sameRegisters hup hut)

/-! ### Reset and boot (10_state.md R42, 70_reset_and_hazards.md R280) -/

/-- Settles O54: every component of R42's table is read off the reset state, whose memory lists no cell. -/
theorem resetState : Obligations.ResetState :=
  ⟨rfl, rfl, rfl, rfl, rfl, rfl, rfl, rfl, rfl, rfl, rfl, rfl, fun _ => rfl⟩

/-- The reset state meets the invariant with any canonical memory in it. -/
theorem reset_withMem_inv {m : Memory} (hm : m.wf = true) : State.Inv { State.reset with mem := m } where
  mem := hm
  pipeline := pipelineOk_of_clear rfl rfl rfl rfl
  pending := by simp [State.PendingOk, State.reset]
  queue := List.Pairwise.nil
  fault := ⟨by simp [State.reset], by simp [State.reset]⟩
  out := by simp [State.OutOk, State.reset]
  devices := Nat.zero_le _

/-- A boot that is not refused answers the reset state with the image, which fits, in memory (R282). -/
theorem boot_eq_next {image : List Nat} {s : State} (h : boot image = .next s) :
    image.length ≤ 65536 ∧ s = { State.reset with mem := imageMemory image } := by
  unfold boot at h
  split at h
  · cases h
  · split at h
    · cases h
    · cases h
      exact ⟨by omega, rfl⟩

/-- The memory of an image that fits is canonical. -/
theorem imageMemory_wf {image : List Nat} (h : image.length ≤ 65536) : (imageMemory image).wf = true :=
  Memory.loadFrom_wf Memory.wf_nil _ 0 (by simpa using h)

/-- Settles O56: a booted machine differs from reset only in its memory, which loading an image leaves canonical. -/
theorem resetAndBootMeetTheInvariant : Obligations.ResetAndBootMeetTheInvariant := by
  refine ⟨reset_withMem_inv Memory.wf_nil, fun image s h => ?_⟩
  obtain ⟨hlen, rfl⟩ := boot_eq_next h
  exact reset_withMem_inv (imageMemory_wf hlen)

end Sys2Proof.Proofs.StateFamily
end

section
/-! PROOFS. The family of 20_memory.md: memory and the MMU, the boot image, the host's calls, the progress of a step, and that a
stored byte is seen by every later fetch. -/

namespace Sys2Proof.Proofs.MemoryFamily

open Sys2Proof Sys2Proof.Machine Sys2Proof.Proofs.StateFamily

/-! ### Memory and the MMU (20_memory.md R51 to R59) -/

/-- Settles O6: `u16` of an integer is its residue modulo 65536. -/
theorem setMarReducesAnyInteger : Obligations.SetMarReducesAnyInteger := by
  intro n a s
  refine ⟨?_, rfl, rfl, rfl⟩
  have hnn : 0 ≤ n % 65536 := Int.emod_nonneg n (by decide)
  simp [setMARInt, u16, BitVec.toNat_ofInt, hnn]

/-- Settles O7: the read after the write is a read of the written memory at the written address. -/
theorem writeThenReadReturnsTheByte : Obligations.WriteThenReadReturnsTheByte := by
  intro s a d hwf
  refine ⟨_, rfl, ?_, rfl, Memory.write_wf hwf a d, fun b => Memory.read_write hwf a b d, ?_⟩
  · simp [Memory.read_write hwf]
  · ext1 <;> simp [Memory.read_write hwf]

/-- Settles O9, one sequencer state at a time. -/
theorem mmuReadBySequencerState : Obligations.MmuReadBySequencerState :=
  fun _ => ⟨mmuRead_idle, mmuRead_low, fun h => ⟨_, rfl, addrOf_toNat _ _, mmuRead_high h⟩⟩

/-- The pulse that starts a two-operand decode arms the MMU and leaves the low byte in it (R107). -/
theorem pulse_decodeTwoFirst {s : State} (hr : s.status = .running) (hs : s.step = .decode) (hf : s.firstPass = false)
    (hc : classify s.ir s.x = .two) :
    pulse s = .next { s with
      mar := s.pc, mdr := s.mem.read s.pc, mmuLow := s.mem.read s.pc, mmuState := .highPending
      pc := s.pc + 1#16, firstPass := true, cycles := s.cycles + 1 } := by
  rw [pulse_decode hr hs, doDecode_two (by exact hc), countPulse_firstPass, if_neg (by simp [hf]), decodeTwoFirst_eq]
  rfl

/-- The pulse that starts in the second half of a two-operand decode, its MMU holding the low byte (R108). -/
theorem pulse_decodeTwoSecond {s : State} (hr : s.status = .running) (hs : s.step = .decode) (hf : s.firstPass = true)
    (hc : classify s.ir s.x = .two) (hm : s.mmuState = .highPending) :
    pulse s = .next { s with
      mar := addrOf (s.mem.read s.pc) s.mmuLow, mdr := s.mem.read (addrOf (s.mem.read s.pc) s.mmuLow)
      mmuState := .idle, pc := s.pc + 1#16, firstPass := false, step := .execute, cycles := s.cycles + 1 } := by
  rw [pulse_decode hr hs, doDecode_two (by exact hc), countPulse_firstPass, if_pos hf, decodeTwoSecond_high (by exact hm)]
  rfl

/-- Settles O10: the first pulse leaves the low byte in the MMU, the second reads the high byte and dereferences. -/
theorem twoDecodePulsesDereference : Obligations.TwoDecodePulsesDereference := by
  intro s hr hs hf hc
  refine ⟨_, addrOf_toNat _ _, ?_⟩
  rw [pulse_decodeTwoFirst hr hs hf hc, andThen_next, pulse_decodeTwoSecond (by exact hr) (by exact hs) rfl (by exact hc) rfl]
  simp [hf, BitVec.add_assoc]

/-- Settles O16, by whether a write is pending. -/
theorem writebackPulseStoresAtMar : Obligations.WritebackPulseStoresAtMar := by
  intro s hwf hr hs
  refine ⟨_, pulse_writeback hr hs, ?_, ?_⟩
  all_goals cases hw : s.writePending
  · simp [doWriteback, hw]
  · simp [doWriteback, hw, Memory.read_write hwf]
  · simp [doWriteback, hw, countPulse, setStep]
  · simp [doWriteback, hw, countPulse, setStep, memWrite]

/-- Settles O52: the listeners are pulsed in their order, and the memory's handler leaves the CPU's state as it is. -/
theorem tickPulsesCpuThenMemory : Obligations.TickPulsesCpuThenMemory := by
  refine ⟨rfl, fun s => ⟨?_, tick_eq s⟩⟩
  rw [tick_eq]
  cases pulse s <;> rfl

/-! ### The boot image (20_memory.md R60, 70_reset_and_hazards.md R282) -/

/-- Byte `i` of an image that fits stands at address `i`, and 0x00 beyond the image. -/
theorem imageMemory_read {image : List Nat} (hlen : image.length ≤ 65536) (a : Addr) :
    (imageMemory image).read a = BitVec.ofNat 8 (image.getD a.toNat 0) := by
  unfold Memory.read imageMemory
  rw [Memory.lookup_loadFrom _ 0 Memory.wf_nil (by simpa using hlen)]
  by_cases ha : a.toNat < image.length
  · simp [ha]
  · simp [ha, Memory.lookup, Memory.default]

/-- Boot refuses every image that does not fit (R282; D37). -/
theorem boot_refused {image : List Nat} (h : ¬ (image.length ≤ 65536 ∧ ∀ b ∈ image, b < 256)) :
    ∃ r, boot image = .refused r := by
  unfold boot
  split
  · exact ⟨_, rfl⟩
  · rename_i hlen
    have hbad : firstBadByte image ≠ none := fun hnone => h ⟨by omega, firstBadByte_eq_none.1 hnone⟩
    obtain ⟨b, hb⟩ := Option.ne_none_iff_exists'.1 hbad
    exact ⟨.imageByteOutOfRange b, by rw [hb]⟩

/-- Boot accepts every image that fits (R280). -/
theorem boot_accepts {image : List Nat} (hlen : image.length ≤ 65536) (hbytes : ∀ b ∈ image, b < 256) :
    boot image = .next { State.reset with mem := imageMemory image } := by
  rw [boot, if_neg (by omega), firstBadByte_eq_none.2 hbytes]

/-- Settles O55: the loaded memory reads as the image, whose elements are bytes. -/
theorem bootLoadsAnImageThatFits : Obligations.BootLoadsAnImageThatFits := by
  refine fun image => ⟨fun ⟨hlen, hbytes⟩ => ⟨_, boot_accepts hlen hbytes, imageMemory_wf hlen, fun a => ?_⟩, boot_refused⟩
  have hbyte : image.getD a.toNat 0 < 256 := by
    by_cases ha : a.toNat < image.length
    · simpa [ha] using hbytes _ (List.getElem_mem ha)
    · simp [ha]
  simpa [imageMemory_read hlen] using hbyte

/-! ### The host's calls (60_exceptions.md R250, R272) -/

/-- Settles O51, by induction on the calls: each changes only the interrupt state and, by a stop, the status. -/
theorem hostNeverTouchesTheCpu : Obligations.HostNeverTouchesTheCpu := by
  intro acts
  induction acts with
  | nil => exact fun s => ⟨s, rfl, rfl, .inl rfl⟩
  | cons act rest ih =>
    intro s
    obtain ⟨hframe, hstatus⟩ := hostAct_frame act s
    obtain ⟨t, ht, hframe', hstatus'⟩ := ih (hostAct act s)
    refine ⟨t, ht, by rw [hframe', hframe], ?_⟩
    rcases hstatus with hkept | ⟨hrun, hstopped⟩
    · rwa [hkept] at hstatus'
    · exact .inr ⟨hrun, by simpa [hstopped] using hstatus'⟩

/-! ### Progress (70_reset_and_hazards.md R289; log 14) -/

/-- The instruction that `s` is in, or is about to fetch, may be a SYS that hangs: its opcode is 0xFF, its execute work is still
to come, and nothing in memory stops the string loop (44_system.md R215). -/
def MayHang (s : State) : Prop :=
  (∀ b, isPrintable (s.mem.read b)) ∧
    match s.step with
    | .fetch => s.mem.read s.pc = 0xFF#8
    | .decode | .execute => s.ir = 0xFF#8
    | .writeback | .interruptCheck => False

/-- 0xFF is no printable byte, so a SYS that is still to be fetched never hangs. -/
theorem not_mayHang_of_fetch {s : State} (h : s.step = .fetch) : ¬ MayHang s := by
  rintro ⟨hprint, hop⟩
  rw [h] at hop
  have := (hprint s.pc).2
  simp [hop] at this

/-- `r` ends the instruction or brings its end nearer without a new danger of hanging, or is the hang. -/
def Advances (s : State) (r : Result) : Prop :=
  (∃ t, r = .next t ∧ (atBoundary t = true ∨ (pulsesLeft t < pulsesLeft s ∧ (MayHang t → MayHang s)))) ∨
    (r = .fault .stringNeverEnds ∧ MayHang s)

theorem advances_next {s t : State} (hleft : pulsesLeft t < pulsesLeft s) (hhang : MayHang t → MayHang s) :
    Advances s (.next t) :=
  .inl ⟨t, rfl, .inr ⟨hleft, hhang⟩⟩

/-- Only the execute work of 0xFF hangs. -/
theorem opcodeOf_eq_of_exec_fault {i : Instr} {s : State} {r : Fault} (h : exec i s = .fault r) : opcodeOf i = 0xFF#8 := by
  cases i
  case sysImplied => rfl
  case sysAbs => rfl
  all_goals cases h

theorem ir_eq_of_doExecute_fault {s : State} {r : Fault} (h : doExecute s = .fault r) : s.ir = 0xFF#8 := by
  unfold doExecute at h
  split at h
  · rename_i i hins
    rw [← (instrOf_eq_some hins).1]
    cases he : exec i s with
    | fault r' => exact opcodeOf_eq_of_exec_fault he
    | next t => simp [he] at h
    | refused r' => simp [he] at h
  · cases h

theorem finishExecute_ir (s : State) : (finishExecute s).ir = s.ir := by
  unfold finishExecute
  split
  · rfl
  · split
    · rfl
    · split <;> rfl

theorem doExecute_ir {s t : State} (hi : s.mmuState = .idle) (h : doExecute s = .next t) : t.ir = s.ir := by
  unfold doExecute at h
  split at h
  · obtain ⟨u, hu, hut⟩ := andThen_eq_next h
    cases hut
    rw [finishExecute_ir, exec_frame hi hu]
  · cases h
    rw [finishExecute_ir]
    unfold execUndefined
    split <;> rfl

/-- A state whose execute work is still to come, with the opcode in IR, may hang exactly as its memory and IR say. -/
theorem mayHang_iff_of_ir {s : State} (hs : s.step = .decode ∨ s.step = .execute) :
    MayHang s ↔ (∀ b, isPrintable (s.mem.read b)) ∧ s.ir = 0xFF#8 := by
  unfold MayHang
  rcases hs with hs | hs <;> rw [hs]

/-- Beyond the fetch, a state that may hang has 0xFF in IR. -/
theorem mayHang_ir {s : State} (hs : s.step ≠ .fetch) (h : MayHang s) :
    (∀ b, isPrintable (s.mem.read b)) ∧ s.ir = 0xFF#8 := by
  obtain ⟨hprint, hop⟩ := h
  cases hstep : s.step <;> rw [hstep] at hop
  case fetch => exact absurd hstep hs
  case decode | execute => exact ⟨hprint, hop⟩
  case writeback | interruptCheck => exact hop.elim

/-- Beyond the fetch the danger of hanging goes back to any state that still executes with the same IR and memory. -/
theorem mayHang_of_sameInstr {s t : State} (hs : s.step = .decode ∨ s.step = .execute) (ht : t.step ≠ .fetch)
    (hmem : t.mem = s.mem) (hir : t.ir = s.ir) (h : MayHang t) : MayHang s := by
  rw [mayHang_iff_of_ir hs, ← hmem, ← hir]
  exact mayHang_ir ht h

theorem doExecute_advances {s : State} (hs : s.Inv) (hi : s.mmuState = .idle) (hstep : s.step = .decode ∨ s.step = .execute) :
    Advances s (doExecute s) := by
  rcases doExecute_good hs hi hstep with ⟨t, ht, hb | hleft⟩ | ⟨hfault, hprint⟩
  · exact .inl ⟨t, ht, .inl hb⟩
  · rw [ht]
    by_cases htf : t.step = .fetch
    · exact .inl ⟨t, rfl, .inl (by simp [atBoundary, htf])⟩
    · exact advances_next hleft (mayHang_of_sameInstr hstep htf (doExecute_mem hi ht) (doExecute_ir hi ht))
  · exact .inr ⟨hfault, (mayHang_iff_of_ir hstep).2 ⟨hprint, ir_eq_of_doExecute_fault hfault⟩⟩

theorem doFetch_advances {s : State} (hs : s.Inv) (hstep : s.step = .fetch) : Advances s (.next (doFetch s)) := by
  have hf := firstPass_eq_false hs.pipeline (.inl (by simp [hstep]))
  rw [doFetch_idle (idle_of_pipelineOk hs.pipeline (.inr hf))]
  refine advances_next (by simp [pulsesLeft, hstep, hf]) fun h => ?_
  simpa [MayHang, hstep] using h

theorem doDecode_advances {s : State} (hs : s.Inv) (hstep : s.step = .decode) : Advances s (doDecode s) := by
  have hp := hs.pipeline
  have h2 := phase2_eq_false hp (by simp [hstep])
  have executes (hz : classify s.ir s.x = .zero ∨ classify s.ir s.x = .implied) : Advances s (doDecode s) := by
    have hf := firstPass_eq_false hp (.inr (by rcases hz with hz | hz <;> simp [hz]))
    rw [doDecode_zero hz]
    exact doExecute_advances hs (idle_of_pipelineOk hp (.inr hf)) (.inl hstep)
  cases hclass : classify s.ir s.x with
  | zero => exact executes (.inl hclass)
  | implied => exact executes (.inr hclass)
  | one =>
    have hf := firstPass_eq_false hp (.inr (by simp [hclass]))
    rw [doDecode_one hclass, decodeOne_idle (idle_of_pipelineOk hp (.inr hf))]
    exact advances_next (by simp [pulsesLeft, hstep, hf, h2]) (mayHang_of_sameInstr (.inl hstep) (by simp) rfl rfl)
  | two =>
    rw [doDecode_two hclass]
    cases hf : s.firstPass with
    | false =>
      rw [if_neg (by simp), decodeTwoFirst_eq]
      exact advances_next (by simp [pulsesLeft, hstep, hf]) (mayHang_of_sameInstr (.inl hstep) (by simp [hstep]) rfl rfl)
    | true =>
      rw [if_pos rfl, decodeTwoSecond_high (hp.firstPass hf).2.1]
      exact advances_next (by simp [pulsesLeft, hstep, hf, h2]) (mayHang_of_sameInstr (.inl hstep) (by simp) rfl rfl)

/-- A writeback pulse leaves only the interrupt check, which cannot hang. -/
theorem doWriteback_advances {s : State} (hstep : s.step = .writeback) : Advances s (.next (doWriteback s)) :=
  advances_next (by simp [pulsesLeft, doWriteback, hstep]) fun h => by simp [MayHang, doWriteback] at h

/-- The work of any step ends the instruction, brings its end nearer, or hangs. -/
theorem stepWork_advances {s : State} (hs : s.Inv) : Advances s (stepWork s) := by
  unfold stepWork
  cases hstep : s.step
  case fetch => exact doFetch_advances hs hstep
  case decode => exact doDecode_advances hs hstep
  case execute =>
    exact doExecute_advances hs (idle_of_pipelineOk hs.pipeline (.inl (by simp [hstep]))) (.inr hstep)
  case writeback => exact doWriteback_advances hstep
  case interruptCheck =>
    rcases doInterruptCheck_cases s with ⟨t, ht, hfetch, -⟩ | ⟨-, hpend, hqueue⟩
    · exact .inl ⟨t, ht, .inl (by simp [atBoundary, hfetch])⟩
    · exact absurd hqueue (hs.pending.1 hpend)

/-- So does a pulse; once the run has ended the machine stands at a boundary for good. -/
theorem pulse_advances {s : State} (hs : s.Inv) : Advances s (pulse s) := by
  by_cases hr : s.status = .running
  · rw [pulse_running hr]
    exact stepWork_advances (countPulse_inv hs)
  · exact .inl ⟨s, pulse_ended hr, .inl (by simp [atBoundary, hr])⟩

theorem pulsesLeft_bounds (s : State) : 1 ≤ pulsesLeft s ∧ pulsesLeft s ≤ 7 := by
  unfold pulsesLeft
  split
  case h_2 => split <;> omega
  case h_3 => split <;> omega
  all_goals omega

/-- With as many ticks as the instruction has pulses left, a run of ticks reaches the boundary or hangs. -/
theorem ticksToBoundary_completes {n : Nat} {s : State} (hs : s.Inv) (hn : pulsesLeft s ≤ n) :
    (∃ t, ticksToBoundary n s = .next t ∧ atBoundary t = true) ∨
      (ticksToBoundary n s = .fault .stringNeverEnds ∧ MayHang s) := by
  induction n generalizing s with
  | zero =>
    obtain ⟨hpos, -⟩ := pulsesLeft_bounds s
    omega
  | succ n ih =>
    rw [ticksToBoundary_succ]
    rcases pulse_advances hs with ⟨t, ht, hnear⟩ | ⟨hfault, hhang⟩
    · rw [ht, andThen_next]
      by_cases hb : atBoundary t = true
      · exact .inl ⟨t, by rw [goOn, if_pos hb], hb⟩
      · obtain ⟨hleft, hback⟩ := hnear.resolve_left hb
        rw [goOn, if_neg hb]
        exact (ih (pulse_inv hs ht) (by omega)).imp_right fun ⟨hfault, hhang⟩ => ⟨hfault, hback hhang⟩
    · exact .inr ⟨by rw [hfault]; rfl, hhang⟩

/-- A step of an ended run is at a boundary without changing anything. -/
theorem step_ended {s : State} (h : s.status ≠ .running) : step s = .next s := by
  show ticksToBoundary 7 s = _
  rw [ticksToBoundary_succ, pulse_ended h, andThen_next, goOn_boundary (.inl h)]

/-- Settles O60: seven ticks are enough, and a state about to fetch cannot hang. -/
theorem stepAlwaysCompletes : Obligations.StepAlwaysCompletes := by
  intro s hs
  have hstep := ticksToBoundary_completes hs (pulsesLeft_bounds s).2
  refine ⟨hstep.imp_right fun ⟨hfault, hhang⟩ => ⟨hfault, hhang.1⟩, fun hb => ?_⟩
  by_cases hr : s.status = .running
  · have hfetch : s.step = .fetch := by simpa [atBoundary, hr] using hb
    exact hstep.resolve_right fun ⟨_, hhang⟩ => not_mayHang_of_fetch hfetch hhang
  · exact ⟨s, step_ended hr, hb⟩

/-! ### A whole step between its execute work and its end (40_pipeline.md R109 to R112) -/

/-- `u` is the state that the execute work of a step from `s` leaves: memory is not yet written, the decode and INC phases are
over, and a pending write is that of a store instruction at PC. -/
structure AfterExecute (s u : State) : Prop where
  mem : u.mem = s.mem
  idle : u.mmuState = .idle
  firstPass : u.firstPass = false
  phase2 : u.phase2 = false
  pending : u.PendingOk
  store : u.writePending = true → s.storesTo u.mar

/-- Of the instructions with one phase only STA leaves a write pending, and MAR is then its operand address. -/
theorem eq_staAbs_of_writePending {i : Instr} {d u : State} (hd : d.AtExecute i) (hw : d.writePending = false)
    (hn : ∀ ea, i ≠ .incAbs ea) (h : exec i d = .next u) (hu : u.writePending = true) : i = .staAbs u.mar := by
  by_cases hsta : ∃ ea, i = .staAbs ea
  · obtain ⟨ea, rfl⟩ := hsta
    cases h
    exact congrArg Instr.staAbs (sees_two hd rfl).1.symm
  · rw [exec_writePending hd.idle h hn fun ea he => hsta ⟨ea, he⟩, hw] at hu
    cases hu

theorem delivered_firstPass (i : Instr) {s : State} (hr : s.Ready) : (s.delivered i).firstPass = false := by
  rw [delivered_frame]
  exact hr.firstPass

theorem executePhases_afterExecute {s u : State} {i : Instr} {rest : List Byte} (hr : s.Ready)
    (hd : decode s.x (fetchBytes s) = .ok (i, rest)) (h : executePhases i (s.delivered i) = .next u) :
    AfterExecute s u := by
  have hat := delivered_atExecute hr (decode_at_pc hd).1
  have hfirst := delivered_firstPass i hr
  obtain ⟨hrun, hphase, hwrite, hidle, hpend, hmem, -⟩ := delivered_fields i hr
  by_cases hinc : ∃ ea, i = .incAbs ea
  · obtain ⟨ea, rfl⟩ := hinc
    obtain ⟨hmar, -⟩ := sees_two hat rfl
    rw [executePhases_inc hrun hphase] at h
    cases h
    exact ⟨hmem, hidle, hfirst, hphase, hpend, fun _ => ⟨rest, .inr (hd.trans (by rw [hmar]))⟩⟩
  · have hn : ∀ ea, i ≠ .incAbs ea := fun ea he => hinc ⟨ea, he⟩
    rw [executePhases_other hidle hphase hn] at h
    have hframe := exec_frame hidle h
    refine ⟨by rw [hframe, hmem], by rw [hframe, hidle], by rw [hframe, hfirst], (exec_phase2 hidle h hn).trans hphase,
      pendingOk_of_keepsInterrupts (exec_keepsInterrupts h) hpend, fun hw => ⟨rest, .inl ?_⟩⟩
    rw [hd, ← eq_staAbs_of_writePending hat hwrite hn h hw]

/-- The state in which the decode pulse of an undefined opcode at PC does its execute work (30_encoding.md R86; D5, log 16). -/
def undefinedDelivered (s : State) : State :=
  { s with
    ir := s.mem.read s.pc, mar := s.pc, mdr := s.mem.read s.pc, pc := s.pc + 1#16, step := .decode, cycles := s.cycles + 2 }

/-- A step over an undefined opcode follows the policy and then ends like any instruction (44_system.md R220). -/
theorem step_undefined {s : State} (hr : s.Ready) (h : s.mem.read s.pc ∉ definedOpcodes) :
    step s = endInstruction (execUndefined Config.illegalOpcodePolicy (undefinedDelivered s)) := by
  have hnone : instrAtExecute (undefinedDelivered s) = none := instrOf_undefined _ _ _ h
  have hphase : (execUndefined Config.illegalOpcodePolicy (undefinedDelivered s)).phase2 = false := by
    unfold execUndefined
    split <;> exact hr.phase2
  show ticksToBoundary 7 s = _
  rw [ticksToBoundary_fetch hr, ticksToBoundary_succ, pulse_decode (by exact hr.running) rfl,
    doDecode_zero (by exact .inl (classify_undefined h))]
  show andThen (doExecute (undefinedDelivered s)) (goOn 5) = _
  rw [doExecute, hnone, andThen_next, finishExecute_goOn fun _ => hphase]

theorem execUndefined_afterExecute {s : State} (hr : s.Ready) (p : IllegalOpcodePolicy) :
    AfterExecute s (execUndefined p (undefinedDelivered s)) := by
  have hstore (u : State) (hu : u.writePending = s.writePending) : u.writePending = true → s.storesTo u.mar := by
    simp [hu, hr.writePending]
  cases p <;> exact ⟨rfl, hr.idle, hr.firstPass, hr.phase2, hr.pending, hstore _ rfl⟩

/-- Every step of a ready machine goes through the state after its execute work. -/
theorem step_through_afterExecute {s t : State} (hr : s.Ready) (h : step s = .next t) :
    ∃ u, AfterExecute s u ∧ endInstruction u = .next t := by
  by_cases hop : s.mem.read s.pc ∈ definedOpcodes
  · obtain ⟨i, rest, hd⟩ := decode_at_pc_defined hop
    rw [step_eq_phases hr hd] at h
    obtain ⟨u, hu, hut⟩ := andThen_eq_next h
    exact ⟨u, executePhases_afterExecute hr hd hu, hut⟩
  · rw [step_undefined hr hop] at h
    exact ⟨_, execUndefined_afterExecute hr _, h⟩

theorem doWriteback_keepsInterrupts (s : State) : KeepsInterrupts s (doWriteback s) := by
  unfold doWriteback
  split <;> exact ⟨rfl, rfl, rfl⟩

/-- The end of an instruction keeps `pending` in step with the queue (60_exceptions.md R252). -/
theorem endInstruction_pendingOk {u t : State} (hu : u.PendingOk) (h : endInstruction u = .next t) : t.PendingOk := by
  have hfinish : (countPulse (finishExecute u)).PendingOk :=
    pendingOk_of_keepsInterrupts (finishExecute_keepsInterrupts u) hu
  unfold endInstruction at h
  split at h
  · cases h
    exact hu
  · split at h
    · have hwrite := pendingOk_of_keepsInterrupts (doWriteback_keepsInterrupts _) hfinish
      exact doInterruptCheck_pendingOk (by exact hwrite) h
    · exact doInterruptCheck_pendingOk hfinish h

/-- A step that the run survives ends ready for the next one. -/
theorem endInstruction_ready {s u t : State} (hu : AfterExecute s u) (h : endInstruction u = .next t)
    (hrun : t.status = .running) : t.Ready := by
  have hpend := endInstruction_pendingOk hu.pending h
  by_cases hr : u.status = .running
  · rw [endInstruction_frame h hr hu.phase2] at hpend ⊢
    exact ⟨hr, rfl, hu.idle, hu.firstPass, hu.phase2, rfl, hpend⟩
  · rw [endInstruction_ended hr] at h
    cases h
    exact absurd hrun hr

theorem step_ready {s t : State} (hr : s.Ready) (h : step s = .next t) (hrun : t.status = .running) : t.Ready := by
  obtain ⟨u, hu, hut⟩ := step_through_afterExecute hr h
  exact endInstruction_ready hu hut hrun

/-- A step leaves memory as it is, or writes one byte to an address that the instruction at PC stores to (R111). -/
theorem step_mem {s t : State} (hr : s.Ready) (h : step s = .next t) :
    t.mem = s.mem ∨ ∃ a v, s.storesTo a ∧ t.mem = s.mem.write a v := by
  obtain ⟨u, hu, hut⟩ := step_through_afterExecute hr h
  by_cases hrun : u.status = .running
  · rw [endInstruction_frame hut hrun hu.phase2, ← hu.mem]
    by_cases hw : u.writePending = true
    · exact .inr ⟨u.mar, u.mdr, hu.store hw, if_pos hw⟩
    · exact .inl (if_neg hw)
  · rw [endInstruction_ended hrun] at hut
    cases hut
    exact .inl hu.mem

/-! ### A store and the steps after it (20_memory.md R68) -/

/-- The execute work of a store leaves its byte in MDR, its address in MAR and the write pending (41_load_store.md R151,
42_arithmetic.md R173). -/
theorem executePhases_of_store {s : State} {i : Instr} {ea : Addr} {v : Byte} (hr : s.Ready) (hw : i.wellFormed s.x = true)
    (hstore : (i = .staAbs ea ∧ v = s.a) ∨ (i = .incAbs ea ∧ v = s.mem.read ea + 1#8)) :
    ∃ u, executePhases i (s.delivered i) = .next u ∧ u.status = .running ∧ u.writePending = true ∧ u.mar = ea ∧
      u.mdr = v ∧ u.pc = s.pc + 3#16 := by
  have hat := delivered_atExecute hr hw
  obtain ⟨hrun, hphase, -⟩ := delivered_fields i hr
  rcases hstore with ⟨rfl, rfl⟩ | ⟨rfl, rfl⟩
  · obtain ⟨hmar, -⟩ := sees_two hat rfl
    exact ⟨_, executePhases_other hat.idle hphase (by simp), hrun, rfl, hmar, rfl, rfl⟩
  · obtain ⟨hmar, hmdr⟩ := sees_two hat rfl
    exact ⟨_, executePhases_inc hrun hphase, hrun, rfl, hmar, congrArg (· + 1#8) hmdr, rfl⟩

/-- A whole STA or INC writes its byte at its operand address and ends ready at the next instruction. -/
theorem step_of_store {s : State} {i : Instr} {ea : Addr} {v : Byte} {rest : List Byte} (hr : s.Ready)
    (hd : decode s.x (fetchBytes s) = .ok (i, rest))
    (hstore : (i = .staAbs ea ∧ v = s.a) ∨ (i = .incAbs ea ∧ v = s.mem.read ea + 1#8)) :
    ∃ t, step s = .next t ∧ t.Ready ∧ t.pc = s.pc + 3#16 ∧ t.mem = s.mem.write ea v := by
  obtain ⟨u, hu, hrun, hw, hmar, hmdr, hpc⟩ := executePhases_of_store hr (decode_at_pc hd).1 hstore
  have hafter := executePhases_afterExecute hr hd hu
  obtain ⟨t, ht⟩ := endInstruction_ok hafter.pending
  have hframe := endInstruction_frame ht hrun hafter.phase2
  refine ⟨t, by rw [step_eq_phases hr hd, hu, andThen_next, ht], endInstruction_ready hafter ht (by rw [hframe, hrun]),
    by rw [hframe, hpc], ?_⟩
  rw [hframe, ← hafter.mem, ← hmar, ← hmdr]
  exact if_pos hw

/-- The byte `v` stands at `ea`, and the machine fetches next if it still runs. -/
structure HoldsByte (ea : Addr) (v : Byte) (w : State) : Prop where
  wf : w.mem.wf = true
  read : w.mem.read ea = v
  ready : w.status = .running → w.Ready

/-- A step of an instruction that does not store to `ea` keeps the byte there. -/
theorem step_holdsByte {ea : Addr} {v : Byte} {s t : State} (hs : HoldsByte ea v s) (hn : ¬ s.storesTo ea)
    (h : step s = .next t) : HoldsByte ea v t := by
  by_cases hrun : s.status = .running
  · have hr := hs.ready hrun
    rcases step_mem hr h with hmem | ⟨a, b, ha, hmem⟩
    · exact ⟨hmem ▸ hs.wf, hmem ▸ hs.read, step_ready hr h⟩
    · have hne : ea ≠ a := fun he => hn (he ▸ ha)
      refine ⟨hmem ▸ Memory.write_wf hs.wf a b, ?_, step_ready hr h⟩
      rw [hmem, Memory.read_write hs.wf, if_neg hne, hs.read]
  · rw [step_ended hrun] at h
    cases h
    exact hs

theorem stepsWithoutStoreTo_holdsByte {ea : Addr} {v : Byte} {n : Nat} {t w : State} (ht : HoldsByte ea v t)
    (h : stepsWithoutStoreTo ea n t w) : HoldsByte ea v w := by
  induction n generalizing t with
  | zero => exact h ▸ ht
  | succ n ih =>
    obtain ⟨hn, u, hu, huw⟩ := h
    exact ih (step_holdsByte ht hn hu) huw

/-! ### What the fetch and decode pulses deliver (40_pipeline.md R102 to R108, R114) -/

/-- The fetch pulse of a ready machine. -/
theorem pulse_ready {s : State} (hr : s.Ready) : pulse s = .next { s with
    cycles := s.cycles + 1, mar := s.pc, mdr := s.mem.read s.pc, ir := s.mem.read s.pc, pc := s.pc + 1#16
    step := .decode } := by
  rw [pulse_fetch hr.running hr.fetch, doFetch_idle (by exact hr.idle)]
  rfl

/-- As many pulses as the instruction at PC has bytes leave the state in which its execute work begins, the pulse that executes
not yet counted. -/
theorem pulses_encode_length {s : State} {i : Instr} {rest : List Byte} (hr : s.Ready)
    (hd : decode s.x (fetchBytes s) = .ok (i, rest)) :
    pulses (encode i).length s = .next { s.delivered i with cycles := s.cycles + (encode i).length } := by
  obtain ⟨hw, hop, hops⟩ := decode_at_pc hd
  rw [encode, List.length_cons, pulses_succ, pulse_ready hr, andThen_next]
  rcases classify_opcodeOf hw with ⟨h, -⟩ | ⟨b, h, hc⟩ | ⟨lo, hi, h, hc⟩
  · simp [h, State.delivered, hop]
  · have hb : s.mem.read (s.pc + 1#16) = b := by simpa [h, @eq_comm Byte] using hops
    rw [hop] at hc
    rw [h, List.length_singleton, pulses_succ, pulse_decode (by exact hr.running) rfl, doDecode_one (by exact hc),
      decodeOne_idle (by exact hr.idle)]
    simp [State.delivered, h, hop, hb, countPulse, BitVec.add_assoc]
  · obtain ⟨hlo, hhi⟩ : s.mem.read (s.pc + 1#16) = lo ∧ s.mem.read (s.pc + 2#16) = hi := by
      simpa [h, @eq_comm Byte] using hops
    have hfirst := hr.firstPass
    have hidle := hr.idle
    rw [hop] at hc
    rw [h, List.length_cons, List.length_singleton, pulses_succ,
      pulse_decodeTwoFirst (by exact hr.running) rfl (by exact hr.firstPass) (by exact hc), andThen_next, pulses_succ,
      pulse_decodeTwoSecond (by exact hr.running) rfl rfl (by exact hc) rfl]
    simp [State.delivered, h, hop, hlo, hhi, hfirst, hidle, BitVec.add_assoc]

theorem delivered_cycles {i : Instr} {s : State} (hw : i.wellFormed s.x = true) :
    (s.delivered i).cycles = s.cycles + (encode i).length + 1 := by
  rcases classify_opcodeOf hw with ⟨h, -⟩ | ⟨b, h, -⟩ | ⟨lo, hi, h, -⟩ <;> simp [State.delivered, encode, h]

/-- Counting the pulse that executes gives the state in which the execute work begins. -/
theorem countPulse_of_delivered {i : Instr} {s : State} (hw : i.wellFormed s.x = true) :
    countPulse { s.delivered i with cycles := s.cycles + (encode i).length } = s.delivered i := by
  simp [countPulse, ← delivered_cycles hw]

/-- Settles O43: the store puts the byte at its address, every step in between keeps it, and what stands at an address is what a
fetch and its decode pulses read there. -/
theorem storeIsSeenByEveryLaterFetch : Obligations.StoreIsSeenByEveryLaterFetch := by
  intro s i ea v rest hr hwf hd hstore
  obtain ⟨t, hstep, htr, hpc, hmem⟩ := step_of_store hr hd hstore
  have ht : HoldsByte ea v t := ⟨hmem ▸ Memory.write_wf hwf ea v, by simp [hmem, Memory.read_write hwf], fun _ => htr⟩
  refine ⟨t, hstep, htr, hpc, fun n w hsteps => ?_⟩
  have hw := stepsWithoutStoreTo_holdsByte ht hsteps
  refine ⟨hw.read, fun hrun => ?_⟩
  have hwr := hw.ready hrun
  refine ⟨hwr, fun hat => ⟨_, pulse_ready hwr, by rw [hat, hw.read]⟩, fun j rest' hj => ⟨?_, fun k hk hat => ?_⟩⟩
  · exact ⟨_, pulses_encode_length hwr hj, countPulse_of_delivered (decode_at_pc hj).1⟩
  · rw [encode_at_pc hj hk, hat, hw.read]

end Sys2Proof.Proofs.MemoryFamily
end

section
/-! PROOFS. The family of 30_encoding.md: what the decoder answers, both round trips with the encoder, the length of an
instruction, and the step over an undefined opcode. -/

namespace Sys2Proof.Proofs.EncodingFamily

open Sys2Proof Sys2Proof.Machine

/-! ### What the decoder answers (30_encoding.md R80 to R86) -/

theorem mem_definedOpcodes {op : Byte} :
    op ∈ definedOpcodes ↔ op ∈ zeroOperandSet ∨ op ∈ oneOperandSet ∨ op ∈ twoOperandSet := by
  simp [definedOpcodes]

/-- A zero-operand opcode that the opcode map has is a listed one (R84, R86). -/
theorem mem_zeroOperandSet_of_instrOf {op x b1 : Byte} {ea : Addr} {i : Instr} (h : instrOf op x b1 ea = some i)
    (h1 : op ∉ oneOperandSet) (h2 : op ∉ twoOperandSet) : op ∈ zeroOperandSet := by
  by_contra h0
  have hnone : instrOf op x b1 ea = none := instrOf_undefined x b1 ea (by simp [mem_definedOpcodes, h0, h1, h2])
  simp [hnone] at h

/-- Everything the decoder can do after an opcode: the list ends within the operands of a defined opcode, or the opcode is
looked up with the operands that stand in front of the rest. -/
theorem decode_cons_cases (x op : Byte) (bs : List Byte) :
    (decode x (op :: bs) = .error .truncated ∧ op ∈ definedOpcodes) ∨
      ∃ b1 ea ops rest, decode x (op :: bs) = instrOrUndefined op x b1 ea rest ∧ ops ++ rest = bs ∧
        ∀ i, instrOf op x b1 ea = some i → operandsOf i = ops := by
  rcases classify_cases op x with ⟨hc, hop, hx⟩ | ⟨hc, hop⟩ | ⟨hc, hop, hx⟩ | ⟨hc, h1, h2⟩
  · exact .inr ⟨0#8, 0#16, [], bs, by simp [decode, hc], rfl, fun _ hi => operandsOf_instrOf_zero hi (.inr ⟨hop, hx⟩)⟩
  · match bs with
    | [] => exact .inl ⟨by simp [decode, hc], mem_definedOpcodes.2 (.inr (.inl hop))⟩
    | b1 :: rest =>
      exact .inr ⟨b1, 0#16, [b1], rest, by simp [decode, hc], rfl, fun _ hi => operandsOf_instrOf_one hi hop⟩
  · match bs with
    | [] | [_] => exact .inl ⟨by simp [decode, hc], mem_definedOpcodes.2 (.inr (.inr hop))⟩
    | lo :: hi :: rest =>
      exact .inr ⟨0#8, addrOf hi lo, [lo, hi], rest, by simp [decode, hc], rfl,
        fun _ hi => by simpa using operandsOf_instrOf_two hi hop hx⟩
  · exact .inr ⟨0#8, 0#16, [], bs, by simp [decode, hc], rfl,
      fun _ hi => operandsOf_instrOf_zero hi (.inl (mem_zeroOperandSet_of_instrOf hi h1 h2))⟩

/-- A lookup is rejected exactly for the undefined opcodes (R86). -/
theorem instrOrUndefined_eq_undefined {op x b1 : Byte} {ea : Addr} {rest : List Byte} :
    instrOrUndefined op x b1 ea rest = .error (.undefinedOpcode op) ↔ op ∉ definedOpcodes := by
  rw [← instrOf_eq_none_iff op x b1 ea]
  cases h : instrOf op x b1 ea <;> simp [instrOrUndefined, h]

/-- What decodes has its opcode in front, its operands after it, and the form that X selects. -/
theorem decode_cons_eq_ok {x op : Byte} {bs rest : List Byte} {i : Instr} (h : decode x (op :: bs) = .ok (i, rest)) :
    opcodeOf i = op ∧ operandsOf i ++ rest = bs ∧ i.wellFormed x = true := by
  rcases decode_cons_cases x op bs with ⟨htrunc, -⟩ | ⟨b1, ea, ops, rest', hlookup, happ, hops⟩
  · rw [htrunc] at h
    cases h
  · rw [hlookup] at h
    obtain ⟨hi, rfl⟩ := instrOrUndefined_ok h
    obtain ⟨hop, hwf⟩ := instrOf_eq_some hi
    exact ⟨hop, by rw [hops i hi, happ], hwf⟩

/-! ### The round trips between bytes and instructions (R80, R81, R88) -/

/-- Settles O1, by the class that decode finds for the instruction's opcode: its operands are then the bytes decode reads, and
the opcode map under them is the instruction. -/
theorem decodeOfEncodeIsIdentity : Obligations.DecodeOfEncodeIsIdentity := by
  intro x i rest hwf
  have lookup {b1 : Byte} {ea : Addr} (h1 : ∀ b, operandsOf i = [b] → b1 = b)
      (h2 : ∀ lo hi, operandsOf i = [lo, hi] → ea = addrOf hi lo) :
      instrOrUndefined (opcodeOf i) x b1 ea rest = .ok (i, rest) := by
    rw [instrOrUndefined, instrOf_opcodeOf hwf h1 h2]
  rcases classify_opcodeOf hwf with ⟨hops, hc | hc⟩ | ⟨b, hops, hc⟩ | ⟨lo, hi, hops, hc⟩
  all_goals
    simp only [encode, hops, List.cons_append, List.nil_append, decode, hc]
    exact lookup (by simp [hops]) (by simp +contextual [hops])

/-- Settles O2: the opcode and the operands that decode read are those that encode writes. -/
theorem encodeOfDecodeIsIdentity : Obligations.EncodeOfDecodeIsIdentity := by
  intro x bs rest i h
  cases bs with
  | nil => cases h
  | cons op bs =>
    obtain ⟨rfl, rfl, hwf⟩ := decode_cons_eq_ok h
    exact ⟨rfl, hwf⟩

/-- Settles O3: an undefined opcode reads no operand, so it is looked up and rejected; a defined one is found, or its operands
are cut short. -/
theorem undefinedOpcodesRejectedByName : Obligations.UndefinedOpcodesRejectedByName := by
  refine ⟨by decide, rfl, fun x op rest => ?_⟩
  rcases decode_cons_cases x op rest with ⟨htrunc, hdef⟩ | ⟨b1, ea, ops, rest', hlookup, -⟩
  · simp [htrunc, hdef]
  · rw [hlookup, instrOrUndefined_eq_undefined]

/-! ### The length of an instruction (R82, R84, R88) -/

/-- What decodes is as long as the class of its opcode says. -/
theorem encode_length_of_decode {x op : Byte} {bs rest : List Byte} {i : Instr}
    (h : decode x (op :: bs) = .ok (i, rest)) : (encode i).length = operandBytes (classify op x) + 1 := by
  obtain ⟨rfl, -, hwf⟩ := decode_cons_eq_ok h
  rw [Laws.Length.of_classify i x hwf, encode, List.length_cons]

/-- The class of 0xFF by the value of X (R88). -/
theorem classify_sys (x : Byte) : classify 0xFF#8 x = if x = 1#8 ∨ x = 2#8 then .implied else .two := by
  split
  · simp_all [classify, sysIsImplied]
  · exact classify_two (by decide) fun _ => by simp_all [sysIsImplied]

/-- Settles O4: the length is the class's, and the class follows from the opcode and, for 0xFF, from X. -/
theorem instructionLengthFromOpcodeAndX : Obligations.InstructionLengthFromOpcodeAndX := by
  intro x op rest rest' i h
  rw [encode_length_of_decode h]
  by_cases hff : op = 0xFF#8
  · rw [if_pos hff, hff, classify_sys]
    split <;> rfl
  · rw [if_neg hff, classify, if_neg fun himplied => hff himplied.1]
    split
    · rfl
    · split <;> rfl

/-! ### Undefined opcodes (44_system.md R220) -/

/-- Execute work that leaves the run going, with neither a second phase nor a write, is followed by the interrupt check alone
(40_pipeline.md R110). -/
theorem endInstruction_noWrite {u : State} (hr : u.status = .running) (hp : u.phase2 = false)
    (hw : u.writePending = false) :
    endInstruction u = doInterruptCheck { u with step := .interruptCheck, cycles := u.cycles + 1 } := by
  have hfinish : finishExecute u = setStep .interruptCheck u := by simp [finishExecute, hr, hp, hw]
  rw [endInstruction, if_neg (by simp [hr]), if_neg (by simp [hw]), hfinish]
  rfl

/-- Settles O21: a step over an undefined opcode is the policy's execute work and the end of the instruction; under `nop` that
end is the interrupt check, under `fault` the run has ended. -/
theorem undefinedOpcodeFollowsThePolicy : Obligations.UndefinedOpcodeFollowsThePolicy := by
  intro s hr hop
  rw [MemoryFamily.step_undefined hr hop]
  cases Config.illegalOpcodePolicy with
  | nop => exact endInstruction_noWrite hr.running hr.phase2 hr.writePending
  | fault => exact endInstruction_ended (by simp [execUndefined, raiseFault])

/-! ### Words of the spec (R81, R85) -/

/-- Settles O5: each word is the encoding of its instruction, so the round trip decodes it. -/
theorem specWordsDecode : Obligations.SpecWordsDecode :=
  ⟨decodeOfEncodeIsIdentity _ (.ldaImm 0x05#8) [] rfl,
    decodeOfEncodeIsIdentity _ (.ldxAbs 0x1234#16) [] rfl,
    decodeOfEncodeIsIdentity _ .tay [] rfl,
    decodeOfEncodeIsIdentity _ (.staAbs 0x0030#16) [] rfl,
    decodeOfEncodeIsIdentity _ (.incAbs 0x0020#16) [] rfl,
    decodeOfEncodeIsIdentity _ (.bneRel 0xF8#8) [] rfl,
    decodeOfEncodeIsIdentity _ .sysImplied [0x08#8, 0x00#8] rfl,
    decodeOfEncodeIsIdentity _ (.sysAbs 0x0008#16) [] rfl,
    decodeOfEncodeIsIdentity _ .brk [] rfl⟩

end Sys2Proof.Proofs.EncodingFamily
end

section
/-! PROOFS. The family of 40_pipeline.md: each pulse, a whole step as its pulses, what a step does to PC and memory, and the runs
under a host schedule. -/

namespace Sys2Proof.Proofs.PipelineFamily

open Sys2Proof Sys2Proof.Machine Sys2Proof.Proofs.StateFamily Sys2Proof.Proofs.MemoryFamily

/-! ### The fetch and decode pulses (40_pipeline.md R102 to R108) -/

/-- Settles O11: with the MMU idle a fetch is one read at PC. -/
theorem fetchPulse : Obligations.FetchPulse := by
  intro s hr hs hi
  refine ⟨?_, fun hpc => by rw [hpc]; rfl⟩
  rw [pulse_fetch hr hs, doFetch_idle (by exact hi)]
  rfl

/-- Settles O12: a one-operand opcode is classified so whatever X is, and its decode is one read at PC. -/
theorem oneOperandDecodePulse : Obligations.OneOperandDecodePulse := by
  intro s hr hs hi hop
  rw [pulse_decode hr hs, doDecode_one (by exact classify_one hop), decodeOne_idle (by exact hi)]
  rfl

/-- Settles O13: the opcode is classified as two-operand, and `firstPass` picks the half of the decode. -/
theorem twoOperandDecodePulses : Obligations.TwoOperandDecodePulses := by
  intro s hr hs hop hx
  have hc : classify s.ir s.x = .two := classify_two hop fun hff => by simpa [sysIsImplied] using hx hff
  exact ⟨fun hf => pulse_decodeTwoFirst hr hs hf hc, fun hf hm => pulse_decodeTwoSecond hr hs hf hc hm⟩

/-! ### The execute work and the next step (R104, R105, R109, R110) -/

/-- The execute work is that of the instruction that IR, X, MDR and MAR name (R109). -/
theorem doExecute_of_instrAtExecute {s : State} {i : Instr} (h : instrAtExecute s = some i) :
    doExecute s = andThen (exec i s) (fun t => .next (finishExecute t)) := by
  rw [doExecute, h]

/-- An instruction without operands is named by IR and X alone (R104, R105). -/
theorem instrAtExecute_of_noOperands {s : State} {i : Instr} (hir : s.ir = opcodeOf i) (hw : i.wellFormed s.x = true)
    (hops : operandsOf i = []) : instrAtExecute s = some i := by
  rw [instrAtExecute, hir]
  exact instrOf_opcodeOf hw (by simp [hops]) (by simp [hops])

/-- The decode pulse of an opcode without operands does the execute work (D5, log 16). -/
theorem doDecode_noOperands {s : State} {i : Instr} (hir : s.ir = opcodeOf i) (hw : i.wellFormed s.x = true)
    (hops : operandsOf i = []) : doDecode s = doExecute s := by
  rcases classify_opcodeOf hw with ⟨-, hc⟩ | ⟨b, h, -⟩ | ⟨lo, hi, h, -⟩
  · exact doDecode_zero (hir ▸ hc)
  · simp [h] at hops
  · simp [h] at hops

/-- Counting a pulse changes nothing that an execute pulse sees. -/
theorem atExecute_countPulse {s : State} {i : Instr} : (countPulse s).AtExecute i ↔ s.AtExecute i :=
  ⟨fun ⟨hir, hw, hops, hi⟩ => ⟨hir, hw, hops, hi⟩, fun ⟨hir, hw, hops, hi⟩ => ⟨hir, hw, hops, hi⟩⟩

/-- Settles O14: either pulse is `doExecute`, and the instruction it finds is `i`. -/
theorem executeWorkIsDispatchedOnIr : Obligations.ExecuteWorkIsDispatchedOnIr := by
  rintro s i hr (⟨hs, hat⟩ | ⟨hs, hir, hw, hops⟩)
  · rw [pulse_execute hr hs]
    exact doExecute_of_instrAtExecute (instrAtExecute_of (atExecute_countPulse.2 hat))
  · rw [pulse_decode hr hs, doDecode_noOperands (by exact hir) (by exact hw) hops]
    exact doExecute_of_instrAtExecute (instrAtExecute_of_noOperands hir hw hops)

/-- Settles O15, by the conditions of R110 in their order. -/
theorem nextStepAfterExecute : Obligations.NextStepAfterExecute := by
  refine fun s => ⟨fun hr => if_pos hr, fun hr hp => ?_, fun hr hp hw => ?_, fun hr hp hw => ?_⟩
  all_goals rw [finishExecute, if_neg (by simp [hr])]
  · rw [if_pos hp]
    rfl
  · rw [if_neg (by simp [hp]), if_pos hw]
    rfl
  · rw [if_neg (by simp [hp]), if_neg (by simp [hw])]
    rfl

/-! ### Writeback and the interrupt check (R111, R112) -/

/-- Settles O25: the writeback pulse stores MDR, which is A, at MAR, which is the operand address. -/
theorem storeCompletesInItsWriteback : Obligations.StoreCompletesInItsWriteback := by
  intro ea s hat hwf
  obtain ⟨hmar, -⟩ := sees_two hat rfl
  refine ⟨rfl, _, rfl, fun b => ?_, rfl⟩
  rw [← hmar]
  exact Memory.read_write hwf s.mar b s.a

/-- With nothing pending an interrupt check only goes back to Fetch. -/
theorem doInterruptCheck_of_notPending {s : State} (hp : s.pending = false) :
    doInterruptCheck s = .next { s with step := .fetch } := by
  rw [doInterruptCheck, if_neg (by simp [hp])]
  rfl

/-- With a token pending an interrupt check takes the head of the queue and reports it. -/
theorem doInterruptCheck_of_head {s : State} {t : Token} {p : Int} {rest : List (Token × Int)} (hp : s.pending = true)
    (hq : s.queue = (t, p) :: rest) :
    doInterruptCheck s = .next { s with
      step := .fetch, queue := rest, pending := !rest.isEmpty, out := s.out ++ [.irq t p] } := by
  rw [doInterruptCheck, if_pos hp]
  cases rest <;> simp [supplyInterrupt, dequeue, hq, hp, emit, setStep]

/-- Settles O17, by whether a token is pending. -/
theorem interruptCheckConsumesTheHead : Obligations.InterruptCheckConsumesTheHead := by
  intro s hr hs
  rw [pulse_check hr hs]
  exact ⟨fun hp => doInterruptCheck_of_notPending hp, fun t p rest hp hq => doInterruptCheck_of_head hp hq⟩

/-! ### A machine that is not running (R122, R124) -/

/-- Settles O18: a tick is a pulse, and an ended run stands at a boundary. -/
theorem notRunningPulseChangesNothing : Obligations.NotRunningPulseChangesNothing :=
  fun s h => ⟨pulse_ended h, (tick_eq s).trans (pulse_ended h), step_ended h⟩

theorem stopRequest_running {s : State} (h : s.status = .running) : stopRequest s = { s with status := .stopped } := if_pos h

theorem stopRequest_ended {s : State} (h : s.status ≠ .running) : stopRequest s = s := if_neg h

/-- Settles O49: after a stop request the machine is not running, so a second one changes nothing. -/
theorem stopRequestOnlyStops : Obligations.StopRequestOnlyStops := by
  refine fun s => ⟨stopRequest_running, stopRequest_ended, stopRequest_ended ?_⟩
  by_cases hr : s.status = .running
  · simp [stopRequest_running hr]
  · rwa [stopRequest_ended hr]

/-! ### A whole step as its pulses (R100 to R116) -/

/-- Settles O19: the fetch and decode pulses deliver the execute work, and the pulses after it are the end of the instruction. -/
theorem stepRunsDecodedInstruction : Obligations.StepRunsDecodedInstruction :=
  fun _ _ _ hr hd => step_eq_phases hr hd

/-- The execute work of an instruction without operands begins in its decode pulse, of any other in an execute pulse. -/
theorem delivered_step {i : Instr} {s : State} (hw : i.wellFormed s.x = true) :
    (s.delivered i).step = .execute ∨ ((s.delivered i).step = .decode ∧ operandsOf i = []) := by
  rcases classify_opcodeOf hw with ⟨h, -⟩ | ⟨b, h, -⟩ | ⟨lo, hi, h, -⟩ <;> simp [State.delivered, h]

/-- Settles O20: the pulses before lead to the delivered state but for the count of the pulse that executes, which is dispatched
on IR. -/
theorem executeSeesOperands : Obligations.ExecuteSeesOperands := by
  intro s i rest hr hd
  obtain ⟨hw, -⟩ := decode_at_pc hd
  obtain ⟨u, hu, hcount⟩ : ∃ u, pulses (encode i).length s = .next u ∧ countPulse u = s.delivered i :=
    ⟨_, pulses_encode_length hr hd, countPulse_of_delivered hw⟩
  have hrun : (countPulse u).status = .running := hcount ▸ (delivered_fields i hr).1
  have hat : (countPulse u).AtExecute i := hcount ▸ delivered_atExecute hr hw
  have hstep : (countPulse u).step = .execute ∨ ((countPulse u).step = .decode ∧ operandsOf i = []) :=
    hcount ▸ delivered_step hw
  refine ⟨u, hu, hrun, hcount, ?_, hcount ▸ hat, delivered_pc hw, delivered_frame i s⟩
  rw [← hcount]
  refine executeWorkIsDispatchedOnIr u i hrun (hstep.imp (fun hs => ⟨hs, atExecute_countPulse.1 hat⟩) ?_)
  exact fun ⟨hs, hops⟩ => ⟨hs, hat.opcode, hat.form, hops⟩

/-! ### PC over a whole step (R115, R192) -/

/-- What the execute work of an instruction adds to PC: the offset of a BNE that branches, else nothing (R191, R192). -/
def branchOffset (z : Bool) : Instr → Addr
  | .bneRel b1 => if z = true then 0#16 else b1.signExtend 16
  | _ => 0#16

theorem exec_pc {i : Instr} {s t : State} (hi : s.mmuState = .idle) (h : exec i s = .next t) :
    t.pc = s.pc + branchOffset s.z i := by
  cases i
  case sysImplied => rw [sysDispatch_frame (f := Config.sys2Address) hi h]; simp [branchOffset]
  case sysAbs => rw [sysDispatch_frame (f := Config.sys2Address) hi h]; simp [branchOffset]
  case incAbs =>
    simp only [exec, execIncAbs] at h
    cases h
    split <;> simp [incPhase1, incPhase2, branchOffset]
  case bneRel b1 =>
    simp only [exec, execBneRel] at h
    cases h
    cases hz : s.z <;> simp [branchOffset, branchTarget_eq]
  all_goals
    cases h
    simp [branchOffset, halt]

/-- INC's second phase adds nothing more. -/
theorem executePhases_pc {i : Instr} {s t : State} (hr : s.status = .running) (hi : s.mmuState = .idle)
    (hp : s.phase2 = false) (h : executePhases i s = .next t) : t.pc = s.pc + branchOffset s.z i := by
  by_cases hinc : ∃ ea, i = .incAbs ea
  · obtain ⟨ea, rfl⟩ := hinc
    rw [executePhases_inc hr hp] at h
    cases h
    simp [branchOffset]
  · rw [executePhases_other hi hp fun ea he => hinc ⟨ea, he⟩] at h
    exact exec_pc hi h

theorem endInstruction_pc {u t : State} (hp : u.phase2 = false) (h : endInstruction u = .next t) : t.pc = u.pc := by
  by_cases hr : u.status = .running
  · rw [endInstruction_frame h hr hp]
  · rw [endInstruction_ended hr] at h
    cases h
    rfl

/-- Settles O40: fetch and decode advance PC over the instruction, and its execute work adds the branch offset. -/
theorem onlyBneLeavesTheSequence : Obligations.OnlyBneLeavesTheSequence := by
  intro s t i rest hr hd h
  rw [step_eq_phases hr hd] at h
  obtain ⟨u, hu, hut⟩ := andThen_eq_next h
  obtain ⟨hrun, hphase, -, hidle, -⟩ := delivered_fields i hr
  obtain ⟨-, -, -, hz, -⟩ := delivered_sameRegisters i s
  have hpc : t.pc = s.pc + BitVec.ofNat 16 (encode i).length + branchOffset s.z i := by
    rw [endInstruction_pc (executePhases_afterExecute hr hd hu).phase2 hut, executePhases_pc hrun hidle hphase hu,
      delivered_pc (decode_at_pc hd).1, hz]
  rw [hpc]
  cases i <;> rfl

/-! ### Memory over a whole step (R111, R151, R173) -/

/-- Settles O42: a step writes at most one byte, at the address that the instruction at PC stores to. -/
theorem onlyStaAndIncChangeMemory : Obligations.OnlyStaAndIncChangeMemory := by
  intro s t i rest hr hwf hd h b hb
  rcases step_mem hr h with hmem | ⟨a, v, ⟨rest', hstore⟩, hmem⟩
  · exact absurd (by rw [hmem]) hb
  · have hba : b = a := by
      by_contra hne
      rw [hmem, Memory.read_write hwf, if_neg hne] at hb
      exact hb rfl
    simp only [hd, Except.ok.injEq, Prod.mk.injEq] at hstore
    rw [hba]
    exact hstore.imp And.left And.left

/-- Settles O38: the execute work leaves A in MDR and the write pending, and the end of the instruction stores it at MAR. -/
theorem staWholeInstruction : Obligations.StaWholeInstruction := by
  intro s ea rest hr hwf hd
  have hat := delivered_atExecute hr (decode_at_pc hd).1
  obtain ⟨hrun, hphase, -, hidle, hpend, -⟩ := delivered_fields (.staAbs ea) hr
  obtain ⟨hmar, -⟩ := sees_two hat rfl
  have hexec : executePhases (.staAbs ea) (s.delivered (.staAbs ea)) =
      .next { s.delivered (.staAbs ea) with mdr := s.a, writePending := true } :=
    executePhases_other hidle hphase (by simp)
  obtain ⟨t, ht⟩ := endInstruction_ok (u := { s.delivered (.staAbs ea) with mdr := s.a, writePending := true }) hpend
  have hframe := endInstruction_frame ht hrun hphase
  refine ⟨t, by rw [step_eq_phases hr hd, hexec, andThen_next, ht], fun b => ?_, ?_⟩
  · rw [hframe]
    exact (Memory.read_write hwf _ b s.a).trans (by rw [hmar])
  · rw [hframe]
    exact ⟨rfl, rfl, rfl, rfl, rfl, rfl, hmar, rfl, hrun, rfl⟩

/-! ### Runs under a host schedule (60_exceptions.md R259) -/

theorem runSchedule_cons (acts : List HostAction) (rest : List (List HostAction)) (s : State) :
    runSchedule (acts :: rest) s = andThen (pulse (hostActs acts s)) (runSchedule rest) := by
  rw [runSchedule, tick_eq]

/-- Settles O50, by induction on the schedule: the host's calls leave an ended run ended, and its ticks do nothing. -/
theorem endedRunNeverChanges : Obligations.EndedRunNeverChanges := by
  intro sched
  induction sched with
  | nil => exact fun s _ => ⟨s, rfl, rfl⟩
  | cons acts rest ih =>
    intro s hs
    obtain ⟨u, hu, hframe, hstatus⟩ := hostNeverTouchesTheCpu acts s
    have hkept : u.status = s.status := hstatus.resolve_right fun h => hs h.1
    rw [hkept] at hframe
    have hended : u.status ≠ .running := hkept ▸ hs
    obtain ⟨t, ht, htframe⟩ := ih u hended
    refine ⟨t, by rw [runSchedule_cons, hu, pulse_ended hended, andThen_next, ht], ?_⟩
    rw [htframe, hframe]

/-! ### Noninterference of the interrupt state (R117; 60_exceptions.md R253, R259) -/

/-- `f` neither reads nor writes the interrupt state and the output. -/
def IgnoresInterrupts (f : State → State) : Prop :=
  ∀ d p q o s, f (withInterrupts d p q o s) = withInterrupts d p q o (f s)

/-- Such an `f` leaves the interrupt state and the output as they are. -/
theorem IgnoresInterrupts.keeps {f : State → State} (hf : IgnoresInterrupts f) (s : State) :
    f s = withInterrupts s.devices s.pending s.queue s.out (f s) :=
  hf s.devices s.pending s.queue s.out s

theorem countPulse_ignoresInterrupts : IgnoresInterrupts countPulse := fun _ _ _ _ _ => rfl

/-- The MMU's read at PC, which starts the fetch and every decode pulse that reads a byte. -/
theorem mmuRead_at_pc_ignoresInterrupts : IgnoresInterrupts fun s => mmuRead (changeMAR s.pc s) :=
  fun _ _ _ _ s => mmuRead_withInterrupts (s := changeMAR s.pc s)

theorem doFetch_ignoresInterrupts : IgnoresInterrupts doFetch := fun d p q o s =>
  congrArg (fun r : State => setStep .decode (incPC { r with ir := r.mdr })) (mmuRead_at_pc_ignoresInterrupts d p q o s)

theorem decodeOne_ignoresInterrupts : IgnoresInterrupts decodeOne := fun d p q o s =>
  congrArg (fun r => setStep .execute (incPC r)) (mmuRead_at_pc_ignoresInterrupts d p q o s)

theorem decodeTwoFirst_ignoresInterrupts : IgnoresInterrupts decodeTwoFirst := fun _ _ _ _ s => by
  simp only [decodeTwoFirst_eq]
  rfl

theorem decodeTwoSecond_ignoresInterrupts : IgnoresInterrupts decodeTwoSecond := fun d p q o s =>
  congrArg (fun r => setStep .execute { incPC r with firstPass := false }) (mmuRead_at_pc_ignoresInterrupts d p q o s)

theorem doWriteback_ignoresInterrupts : IgnoresInterrupts doWriteback := fun _ _ _ _ _ => doWriteback_withInterrupts

/-- Two states alike but for the interrupt state, which is sound in both. -/
structure Alike (s u : State) : Prop where
  same : sameButInterrupts s u
  left : s.PendingOk
  right : u.PendingOk

theorem Alike.frame {s u : State} (h : Alike s u) :
    u = { s with devices := u.devices, pending := u.pending, queue := u.queue, out := u.out } :=
  h.same.1

/-- Two runs that both go on to states alike, or both hang. -/
def AlikeRun (x y : Result) : Prop :=
  (∃ t u, x = .next t ∧ y = .next u ∧ Alike t u) ∨ (x = .fault .stringNeverEnds ∧ y = .fault .stringNeverEnds)

theorem AlikeRun.next {s u : State} (h : Alike s u) : AlikeRun (.next s) (.next u) := .inl ⟨s, u, rfl, rfl, h⟩

theorem AlikeRun.andThen {x y : Result} {f g : State → Result} (h : AlikeRun x y)
    (hfg : ∀ s u, Alike s u → AlikeRun (f s) (g u)) : AlikeRun (andThen x f) (andThen y g) := by
  rcases h with ⟨t, u, rfl, rfl, htu⟩ | ⟨rfl, rfl⟩
  · exact hfg t u htu
  · exact .inr ⟨rfl, rfl⟩

/-- What ignores the interrupt state keeps two states alike. -/
theorem Alike.map {f : State → State} (hf : IgnoresInterrupts f) {s u : State} (h : Alike s u) : Alike (f s) (f u) := by
  have hkeeps (w : State) : KeepsInterrupts w (f w) := by
    rw [hf.keeps w]
    exact ⟨rfl, rfl, rfl⟩
  refine ⟨?_, pendingOk_of_keepsInterrupts (hkeeps s) h.left, pendingOk_of_keepsInterrupts (hkeeps u) h.right⟩
  obtain ⟨d, p, q, o, rfl, ho⟩ := sameButInterrupts_iff.1 h.same
  rw [hf]
  refine sameButInterrupts_withInterrupts ?_
  rw [hf.keeps s]
  exact ho

/-- The execute work goes on alike, or hangs in both. -/
theorem doExecute_alike {s u : State} (h : Alike s u) : AlikeRun (doExecute s) (doExecute u) := by
  obtain ⟨d, p, q, o, rfl, ho⟩ := sameButInterrupts_iff.1 h.same
  rcases doExecute_sameRun ho with ⟨t, t', ht, ht', hsame⟩ | hhang
  · exact .inl ⟨t, t', ht, ht', hsame, pendingOk_of_keepsInterrupts (doExecute_keepsInterrupts ht) h.left,
      pendingOk_of_keepsInterrupts (doExecute_keepsInterrupts ht') h.right⟩
  · exact .inr hhang

theorem doDecode_alike {s u : State} (h : Alike s u) : AlikeRun (doDecode s) (doDecode u) := by
  obtain ⟨hir, hx, hf⟩ : u.ir = s.ir ∧ u.x = s.x ∧ u.firstPass = s.firstPass := by
    rw [h.frame]
    exact ⟨rfl, rfl, rfl⟩
  unfold doDecode
  rw [hir, hx, hf]
  cases classify s.ir s.x with
  | zero => exact doExecute_alike h
  | implied => exact doExecute_alike h
  | one => exact .next (h.map decodeOne_ignoresInterrupts)
  | two =>
    cases s.firstPass with
    | false => exact .next (h.map decodeTwoFirst_ignoresInterrupts)
    | true => exact .next (h.map decodeTwoSecond_ignoresInterrupts)

/-- An interrupt check consumes at most a token and emits at most an `Irq`, which is no output of the program (D39, log 20). -/
theorem doInterruptCheck_sameButInterrupts {s : State} (h : s.PendingOk) :
    ∃ t, doInterruptCheck s = .next t ∧ sameButInterrupts (setStep .fetch s) t ∧ t.PendingOk := by
  obtain ⟨t, ht⟩ := doInterruptCheck_ok h
  refine ⟨t, ht, ?_, doInterruptCheck_pendingOk h ht⟩
  rcases doInterruptCheck_eq_next ht with rfl | ⟨e, rest, -, hframe⟩
  · exact ⟨rfl, rfl⟩
  · rw [hframe]
    exact ⟨rfl, by simp [outputEvents]⟩

theorem doInterruptCheck_alike {s u : State} (h : Alike s u) : AlikeRun (doInterruptCheck s) (doInterruptCheck u) := by
  obtain ⟨t, ht, hst, htp⟩ := doInterruptCheck_sameButInterrupts h.left
  obtain ⟨t', ht', hut', htp'⟩ := doInterruptCheck_sameButInterrupts h.right
  have hstep := (h.map (f := setStep .fetch) fun _ _ _ _ _ => rfl).same
  have hsame := sameButInterrupts_trans (sameButInterrupts_symm hst) (sameButInterrupts_trans hstep hut')
  exact .inl ⟨t, t', ht, ht', hsame, htp, htp'⟩

theorem stepWork_alike {s u : State} (h : Alike s u) : AlikeRun (stepWork s) (stepWork u) := by
  have hstep : u.step = s.step := by rw [h.frame]
  unfold stepWork
  rw [hstep]
  cases s.step with
  | fetch => exact .next (h.map doFetch_ignoresInterrupts)
  | decode => exact doDecode_alike h
  | execute => exact doExecute_alike h
  | writeback => exact .next (h.map doWriteback_ignoresInterrupts)
  | interruptCheck => exact doInterruptCheck_alike h

theorem pulse_alike {s u : State} (h : Alike s u) : AlikeRun (pulse s) (pulse u) := by
  have hstatus : u.status = s.status := by rw [h.frame]
  unfold pulse
  rw [hstatus]
  split
  · exact stepWork_alike (h.map countPulse_ignoresInterrupts)
  · exact .next h

/-- Accepting a token keeps `pending` in step with the queue (60_exceptions.md R250, R252). -/
theorem acceptInterrupt_pendingOk (t : Token) (p : Int) (s : State) : (acceptInterrupt t p s).PendingOk := by
  have henqueue : enqueue t p s.queue ≠ [] := by
    cases s.queue with
    | nil => simp [enqueue]
    | cons e rest => rw [enqueue]; split <;> simp
  simpa [State.PendingOk] using henqueue

/-- Every call of the host but the stop request touches only the interrupt state, and leaves it sound. -/
theorem hostAct_alike {act : HostAction} {s u : State} (h : Alike s u) (hstop : act ≠ .stop) : Alike (hostAct act s) u := by
  cases act with
  | stop => exact absurd rfl hstop
  | acceptInterrupt t p => exact ⟨h.same, acceptInterrupt_pendingOk t p s, h.right⟩
  | keypress t => exact ⟨h.same, acceptInterrupt_pendingOk t _ s, h.right⟩
  | addDevice d =>
    rw [hostAct, addDevice]
    split
    · exact ⟨h.same, h.left, h.right⟩
    · exact h

theorem hostActs_alike {acts : List HostAction} {s u : State} (h : Alike s u) (hstop : HostAction.stop ∉ acts) :
    Alike (hostActs acts s) u := by
  induction acts generalizing s with
  | nil => exact h
  | cons act rest ih =>
    obtain ⟨hact, hrest⟩ := not_or.1 (List.mem_cons.not.1 hstop)
    exact ih (hostAct_alike h (Ne.symm hact)) hrest

/-- A run under a schedule without a stop, and the run without any host call, stay alike. -/
theorem runSchedule_alike {sched : List (List HostAction)} {s u : State} (h : Alike s u)
    (hstop : ∀ acts ∈ sched, HostAction.stop ∉ acts) :
    AlikeRun (runSchedule sched s) (runSchedule (sched.map fun _ => []) u) := by
  induction sched generalizing s u with
  | nil => exact .next h
  | cons acts rest ih =>
    obtain ⟨hacts, hrest⟩ := List.forall_mem_cons.1 hstop
    rw [List.map_cons, runSchedule_cons, runSchedule_cons]
    exact (pulse_alike (hostActs_alike h hacts)).andThen fun _ _ htu => ih htu hrest

/-- Settles O53: the two runs start from one state, which is alike itself. -/
theorem tokensNeverChangeTheRun : Obligations.TokensNeverChangeTheRun := by
  intro sched s hs hstop
  refine (runSchedule_alike ⟨⟨rfl, rfl⟩, hs, hs⟩ hstop).imp_left ?_
  rintro ⟨t, u, ht, hu, hsame, -⟩
  exact ⟨t, u, ht, hu, hsame⟩

end Sys2Proof.Proofs.PipelineFamily
end

section
/-! PROOFS. The family of 41_load_store.md: the loads and the transfers. -/

namespace Sys2Proof.Proofs.LoadStoreFamily

open Sys2Proof Sys2Proof.Machine

/-! ### The loads (41_load_store.md R141, R142, R145, R146, R148, R149) -/

/-- LDA absolute takes its datum from MDR (R142). -/
theorem exec_ldaAbs (ea : Addr) (s : State) : exec (.ldaAbs ea) s = .next { s with a := s.mdr } := rfl

/-- LDX absolute takes its datum from MDR (R146). -/
theorem exec_ldxAbs (ea : Addr) (s : State) : exec (.ldxAbs ea) s = .next { s with x := s.mdr } := rfl

/-- LDY absolute takes its datum from MDR (R149). -/
theorem exec_ldyAbs (ea : Addr) (s : State) : exec (.ldyAbs ea) s = .next { s with y := s.mdr } := rfl

/-- Settles O23: an immediate load writes its own operand; an absolute one writes MDR, where decode left the byte at its
address. -/
theorem loadsWriteOnlyTheirRegister : Obligations.LoadsWriteOnlyTheirRegister := by
  refine ⟨fun _ _ => rfl, fun _ _ => rfl, fun _ _ => rfl, fun ea s hat => ?lda, fun ea s hat => ?ldx, fun ea s hat => ?ldy⟩
  all_goals obtain ⟨-, hdatum⟩ := sees_two hat rfl
  case lda => rw [exec_ldaAbs, ← hdatum]
  case ldx => rw [exec_ldxAbs, ← hdatum]
  case ldy => rw [exec_ldyAbs, ← hdatum]

/-! ### The transfers (41_load_store.md R143, R144, R147, R150) -/

/-- Settles O24: the execute work of a transfer is its one register write. -/
theorem transfersCopyTheirRegister : Obligations.TransfersCopyTheirRegister :=
  fun _ => ⟨rfl, rfl, rfl, rfl⟩

end Sys2Proof.Proofs.LoadStoreFamily
end

section
/-! PROOFS. The family of 42_arithmetic.md: ADC, the two phases of INC, and INC over a whole step. -/

namespace Sys2Proof.Proofs.ArithmeticFamily

open Sys2Proof Sys2Proof.Machine Sys2Proof.Proofs.StateFamily Sys2Proof.Proofs.MemoryFamily

/-! ### ADC (42_arithmetic.md R170, R171) -/

/-- ADC adds MDR to A modulo 256, and V says that the operands have one sign and the sum the other (R170). -/
theorem exec_adcAbs (ea : Addr) (s : State) : exec (.adcAbs ea) s = .next { s with
    a := s.a + s.mdr, v := (s.a.msb == s.mdr.msb) && ((s.a + s.mdr).msb != s.a.msb) } := by
  obtain ⟨hvalue, hoverflow⟩ := adc_spec s.a s.mdr
  rw [exec, execAdcAbs, hvalue, hoverflow, overflow_eq_msb]

/-- Settles O26: decode left the datum in MDR, and the signs tell when the exact signed sum is no byte. -/
theorem adcIsSignedAdditionWithOverflow : Obligations.AdcIsSignedAdditionWithOverflow := by
  intro ea s hat
  obtain ⟨-, hdatum⟩ := sees_two hat rfl
  exact ⟨by rw [exec_adcAbs, ← hdatum], by rw [← overflow_eq_msb, decide_eq_true_iff]⟩

/-! ### INC (42_arithmetic.md R172, R173, R174) -/

/-- INC's first phase takes the byte from MDR into A (R172). -/
theorem exec_incAbs_first {ea : Addr} {s : State} (hp : s.phase2 = false) :
    exec (.incAbs ea) s = .next { s with a := s.mdr, phase2 := true } := by
  simp [exec, execIncAbs, incPhase1, hp]

/-- INC's second phase increments A and hands the result to MDR for the writeback (R173). -/
theorem exec_incAbs_second {ea : Addr} {s : State} (hp : s.phase2 = true) : exec (.incAbs ea) s = .next { s with
    a := s.a + 1#8, mdr := s.a + 1#8, writePending := true, phase2 := false
    v := if s.a = 0xFF#8 then true else (if Config.incVNoWrap = .keep then s.v else false) } := by
  obtain ⟨hvalue, -⟩ := incValue_spec s.a
  rw [exec, execIncAbs, if_pos hp, incPhase2, hvalue, incOverflow_eq]
  rfl

/-- Settles O27: `phase2` picks the phase, and decode left the byte in MDR. -/
theorem incPhasesThroughA : Obligations.IncPhasesThroughA := by
  intro ea s hat
  obtain ⟨-, hdatum⟩ := sees_two hat rfl
  exact ⟨fun hp => by rw [exec_incAbs_first hp, ← hdatum], exec_incAbs_second⟩

/-- Settles O39: the two phases leave the incremented byte in A and in MDR with the write pending, and the end of the
instruction stores it at MAR. -/
theorem incWholeInstruction : Obligations.IncWholeInstruction := by
  intro s ea rest hr hwf hd
  obtain ⟨hmar, hdatum⟩ := sees_two (delivered_atExecute hr (decode_at_pc hd).1) rfl
  obtain ⟨hrun, hphase, -⟩ := delivered_fields (.incAbs ea) hr
  have hexec := executePhases_inc (ea := ea) hrun hphase
  rw [incOverflow_eq, hdatum] at hexec
  obtain ⟨t, ht⟩ := endInstruction_ok (executePhases_afterExecute hr hd hexec).pending
  refine ⟨t, by rw [step_eq_phases hr hd, hexec, andThen_next, ht], ?_⟩
  rw [endInstruction_frame ht hrun hphase]
  refine ⟨fun b => ?_, rfl, rfl, rfl, rfl, rfl, rfl, hmar, rfl, rfl, hrun⟩
  exact (Memory.read_write hwf _ b _).trans (by rw [hmar]; rfl)

end Sys2Proof.Proofs.ArithmeticFamily
end

section
/-! PROOFS. The family of 43_compare_branch.md: CPX and BNE. -/

namespace Sys2Proof.Proofs.CompareBranchFamily

open Sys2Proof Sys2Proof.Machine

/-! ### CPX (43_compare_branch.md R190) -/

/-- CPX compares X with the datum in MDR, and writes Z alone (R190). -/
theorem exec_cpxAbs (ea : Addr) (s : State) : exec (.cpxAbs ea) s = .next { s with z := decide (s.x = s.mdr) } := rfl

/-- Settles O28: decode left the byte at the operand address in MDR. -/
theorem cpxSetsZeroOnEquality : Obligations.CpxSetsZeroOnEquality := by
  intro ea s hat
  obtain ⟨-, hdatum⟩ := sees_two hat rfl
  rw [exec_cpxAbs, ← hdatum]

/-! ### BNE (43_compare_branch.md R191) -/

/-- With Z set BNE does not branch (R191). -/
theorem exec_bneRel_of_zero {b1 : Byte} {s : State} (hz : s.z = true) : exec (.bneRel b1) s = .next s := by
  rw [exec, execBneRel, if_pos hz]

/-- With Z clear BNE goes to its branch target, and writes PC alone (R191). -/
theorem exec_bneRel_of_not_zero {b1 : Byte} {s : State} (hz : s.z = false) :
    exec (.bneRel b1) s = .next { s with pc := branchTarget s.pc b1 } := by
  rw [exec, execBneRel, if_neg (Bool.eq_false_iff.1 hz)]

/-- The branch target in exact integers: PC plus the signed offset, wrapping modulo 65536 (R191). -/
theorem branchTarget_toNat (pc : Addr) (b1 : Byte) :
    ((branchTarget pc b1).toNat : Int) = (pc.toNat + sext8 b1) % 65536 := by
  rw [branchTarget, u16, BitVec.toNat_ofInt]
  exact Int.toNat_of_nonneg (Int.emod_nonneg _ (by decide))

/-- Settles O29: Z decides whether BNE branches, and its target is a sign extension in bits and `sext8` in integers. -/
theorem bneBranchesWhenZeroIsClear : Obligations.BneBranchesWhenZeroIsClear := by
  refine fun b1 s => ⟨rfl, exec_bneRel_of_zero, fun hz => ?branches, ?target⟩
  case branches => rw [exec_bneRel_of_not_zero hz, branchTarget_eq]
  case target =>
    rw [← branchTarget_eq, branchTarget_toNat]
    -- `sext8` tests `0x80 ≤ b1`, which on naturals is `0x7F < b1` by definition.
    rfl

end Sys2Proof.Proofs.CompareBranchFamily
end

section
/-! PROOFS. The family of 44_system.md: SYS with its string loop, BRK and NOP. -/

namespace Sys2Proof.Proofs.SystemFamily

open Sys2Proof Sys2Proof.Machine Sys2Proof.Proofs.StateFamily Sys2Proof.Proofs.EncodingFamily

/-! ### PrintString in its two forms (44_system.md R210, R213 to R215) -/

/-- With X = 2 the one-byte SYS prints from SYS2_ADDRESS (R213). -/
theorem exec_sysImplied_two {s : State} (hx : s.x = 0x02#8) :
    exec .sysImplied s = printString (Config.sys2Address (sys2View s)) s := sysDispatch_two _ hx

/-- With X = 3 the three-byte SYS prints from MAR, where decode left its operand address (R214). -/
theorem exec_sysAbs_three (ea : Addr) {s : State} (hx : s.x = 0x03#8) : exec (.sysAbs ea) s = printString s.mar s :=
  sysDispatch_three _ hx

/-- What PrintString answers from `a`, either form of SYS answers when `a` is the address it prints from. -/
theorem exec_sys_of_printString {s : State} {a : Addr} {r : Result} (hprint : printString a s = r) :
    (s.x = 0x02#8 → a = Config.sys2Address (sys2View s) → exec .sysImplied s = r) ∧
    (∀ ea, s.x = 0x03#8 → s.mar = ea → a = ea → exec (.sysAbs ea) s = r) := by
  refine ⟨fun hx ha => ?_, fun ea hx hmar ha => ?_⟩
  · rw [exec_sysImplied_two hx, ← ha, hprint]
  · rw [exec_sysAbs_three ea hx, hmar, ← ha, hprint]

/-- Settles O32: the loop prints every byte of the string and ends at the zero. -/
theorem sysPrintsTerminatedString : Obligations.SysPrintsTerminatedString :=
  fun _ _ _ hidle hstr hmem => exec_sys_of_printString (printString_zero hidle hstr hmem)

/-- Settles O34: the loop prints the bytes before the one above 0x7F, and there it raises the fault. -/
theorem sysFaultsOnByteAbove7F : Obligations.SysFaultsOnByteAbove7F :=
  fun _ _ _ _ hidle hstr hbad hmem => ⟨_, rfl, exec_sys_of_printString (printString_bad hidle hstr hbad hmem)⟩

/-- Settles O35: the loop visits every address, so from any start it never ends exactly when no byte stops it. -/
theorem sysHangsExactlyWhenNothingStopsIt : Obligations.SysHangsExactlyWhenNothingStopsIt := by
  refine fun s hidle => ⟨fun hx => ?_, fun ea hx => ?_⟩
  · rw [exec_sysImplied_two hx, printString_fault hidle]
  · rw [exec_sysAbs_three ea hx, printString_fault hidle]

/-! ### SYS without a string (44_system.md R212, R216) -/

/-- With X = 1 SYS emits Y and does nothing else (R212). -/
theorem sysDispatch_one {s : State} (f : State → Addr) (hx : s.x = 0x01#8) :
    sysDispatch f s = .next (emit (.outHex s.y) s) := if_pos hx

/-- With X in none of its three cases SYS does nothing (R216). -/
theorem sysDispatch_other {s : State} (f : State → Addr) (h1 : s.x ≠ 0x01#8) (h2 : s.x ≠ 0x02#8) (h3 : s.x ≠ 0x03#8) :
    sysDispatch f s = .next s := by
  rw [sysDispatch, if_neg h1, if_neg h2, if_neg h3]

/-- The three-byte SYS is well formed only where X selects neither case of the one-byte form (30_encoding.md R88). -/
theorem sysAbs_wellFormed_iff {x : Byte} {ea : Addr} :
    (Instr.sysAbs ea).wellFormed x = true ↔ x ≠ 0x01#8 ∧ x ≠ 0x02#8 := by
  simp [Instr.wellFormed, sysIsImplied]

/-- Settles O30: X = 1 is the first case of the dispatch, and the form of SYS at execute rules out the first two. -/
theorem sysOnePrintsYInHexAndOtherXNothing : Obligations.SysOnePrintsYInHexAndOtherXNothing := by
  refine ⟨fun s hx => sysDispatch_one _ hx, fun s ea hat h3 => ?_⟩
  obtain ⟨h1, h2⟩ := sysAbs_wellFormed_iff.1 hat.form
  exact sysDispatch_other _ h1 h2 h3

/-! ### The text of OutHex (44_system.md R212; D18, log 28) -/

/-- The digit of each value below 16, in upper case. -/
theorem hexDigit_eq_getElem : ∀ n : Fin 16, hexDigit n = "0123456789ABCDEF".toList[n.val]! := by decide

/-- Settles O31: the two digits are the quotient and the remainder of the byte by 16. -/
theorem hexTextIsFourDigits : Obligations.HexTextIsFourDigits := by
  intro y
  have hhigh : y.toNat / 16 < 16 := by omega
  have hlow : y.toNat % 16 < 16 := by omega
  refine ⟨⟨_, hhigh⟩, ⟨_, hlow⟩, Nat.div_add_mod' .., ?_⟩
  rw [hexText, hexDigit_eq_getElem ⟨_, hhigh⟩, hexDigit_eq_getElem ⟨_, hlow⟩]

/-! ### The readings of SYS2_ADDRESS (44_system.md R213; log 8) -/

/-- The high byte of an address in page zero. -/
theorem hiByte_eq_zero {a : Addr} (h : a.toNat < 256) : hiByte a = 0x00#8 := by
  apply BitVec.eq_of_toNat_eq
  rw [hiByte_toNat, Nat.div_eq_of_lt h]
  rfl

/-- Settles O33: below 0x00FF the opcode's address and the one after it both lie in page zero. -/
theorem sys2ReadingsAgreeInPageZero : Obligations.Sys2ReadingsAgreeInPageZero := by
  intro s op hop hmar hpc
  have hnext : (op + 1#16).toNat < 256 := by bv_omega
  have hpcPage : hiByte s.pc = 0x00#8 := hpc ▸ hiByte_eq_zero hnext
  have hmarPage : hiByte s.mar = 0x00#8 := hmar ▸ hiByte_eq_zero (by omega)
  refine ⟨?pc, ?mar, ?zero⟩
  case pc => exact congrArg (addrOf · s.y) hpcPage
  case mar => exact congrArg (addrOf · s.y) hmarPage
  case zero => simp [sys2ZeroPage, addrOf_toNat]

/-! ### BRK and NOP (44_system.md R217, R218) -/

/-- BRK halts the run (R217). -/
theorem exec_brk (s : State) : exec .brk s = .next { s with status := .halted } := rfl

/-- Settles O36: BRK writes the run status alone, NOP nothing. -/
theorem brkHaltsAndNopDoesNothing : Obligations.BrkHaltsAndNopDoesNothing :=
  fun s => ⟨exec_brk s, rfl⟩

/-- Where a zero byte stands at PC the instruction there is BRK. -/
theorem decode_brk_at_pc {s : State} (hop : s.mem.read s.pc = 0x00#8) :
    ∃ rest, decode s.x (fetchBytes s) = .ok (.brk, rest) := by
  have hhead : s.mem.read (instrByteAddr s 0) = 0x00#8 := by simpa [instrByteAddr] using hop
  rw [fetchBytes, hhead]
  exact ⟨_, decodeOfEncodeIsIdentity s.x .brk _ rfl⟩

/-- Settles O37: the execute work of BRK ends the run, so no pulse follows it. -/
theorem brkEndsTheRun : Obligations.BrkEndsTheRun := by
  intro s hr hop
  obtain ⟨rest, hd⟩ := decode_brk_at_pc hop
  obtain ⟨-, hphase, -, hidle, -⟩ := delivered_fields .brk hr
  rw [step_eq_phases hr hd, executePhases_other hidle hphase (by simp), exec_brk, andThen_next,
    endInstruction_ended (by simp)]
  rfl

end Sys2Proof.Proofs.SystemFamily
end

section
/-! PROOFS. The family of 60_exceptions.md: the pulses of a whole instruction, the priority queue and the host's calls. -/

namespace Sys2Proof.Proofs.ExceptionsFamily

open Sys2Proof Sys2Proof.Machine Sys2Proof.Proofs.StateFamily Sys2Proof.Proofs.MemoryFamily Sys2Proof.Proofs.PipelineFamily

/-! ### The pulses of a whole instruction (70_reset_and_hazards.md R289) -/

/-- The pulses after the first execute pulse of an instruction that does not fault: INC's second phase, the writeback of a store,
and the interrupt check, which only BRK does without. -/
def pulsesAfterExecute : Instr → Nat
  | .brk => 0
  | .staAbs _ => 2
  | .incAbs _ => 3
  | _ => 1

/-- One pulse for each byte, one that executes, and those after it. -/
theorem pulsesOf_eq (i : Instr) : pulsesOf i = (encode i).length + 1 + pulsesAfterExecute i := by
  cases i <;> rfl

theorem endInstruction_status {u t : State} (hp : u.phase2 = false) (h : endInstruction u = .next t) :
    t.status = u.status := by
  by_cases hr : u.status = .running
  · rw [endInstruction_frame h hr hp]
  · rw [endInstruction_ended hr] at h
    cases h
    rfl

/-- The end of an instruction takes a pulse more when a write is pending (40_pipeline.md R110). -/
theorem endInstruction_cycles {u t : State} (hr : u.status = .running) (hp : u.phase2 = false)
    (h : endInstruction u = .next t) : t.cycles = u.cycles + if u.writePending = true then 2 else 1 := by
  rw [endInstruction_frame h hr hp]

/-- From the state in which the execute work of `i` begins, its first pulse already counted, to the end of the instruction. -/
theorem cycles_after_execute {i : Instr} {d u t : State} (hr : d.status = .running) (hi : d.mmuState = .idle)
    (hp : d.phase2 = false) (hw : d.writePending = false) (hu : executePhases i d = .next u)
    (ht : endInstruction u = .next t) (hf : t.status ≠ .faulted) : t.cycles = d.cycles + pulsesAfterExecute i := by
  unfold pulsesAfterExecute
  split
  case h_1 =>
    rw [executePhases_other hi hp (by simp)] at hu
    cases hu
    rw [endInstruction_ended (by simp [halt])] at ht
    cases ht
    rfl
  case h_2 ea =>
    rw [executePhases_other hi hp (by simp)] at hu
    cases hu
    exact endInstruction_cycles (by exact hr) (by exact hp) ht
  case h_3 ea =>
    rw [executePhases_inc hr hp] at hu
    cases hu
    exact endInstruction_cycles (by exact hr) (by exact hp) ht
  case h_4 hbrk hsta hinc =>
    rw [executePhases_other hi hp hinc] at hu
    have hup : u.phase2 = false := (exec_phase2 hi hu hinc).trans hp
    have huw : u.writePending = false := (exec_writePending hi hu hinc hsta).trans hw
    have hrun := exec_status_of_not_faulted hi hr hu (endInstruction_status hup ht ▸ hf)
    rw [if_neg hbrk] at hrun
    rw [endInstruction_cycles hrun hup ht, exec_cycles hi hu, if_neg (by simp [huw])]

/-- Settles O22: the pulses up to the execute work follow from the instruction's length, and those after it from its kind. -/
theorem pulsesPerInstruction : Obligations.PulsesPerInstruction := by
  intro s t i rest hr hd h hf
  rw [step_eq_phases hr hd] at h
  obtain ⟨u, hu, hut⟩ := andThen_eq_next h
  obtain ⟨hrun, hphase, hwrite, hidle, -⟩ := delivered_fields i hr
  rw [cycles_after_execute hrun hidle hphase hwrite hu hut hf, delivered_cycles (decode_at_pc hd).1, pulsesOf_eq]
  omega

/-! ### The priority queue (60_exceptions.md R245, R246) -/

/-- `e` may stand before `f` in the queue: its priority is at least that of `f`. -/
abbrev NotBelow (e f : Token × Int) : Prop := f.2 ≤ e.2

theorem notBelow_total : Std.Total NotBelow := ⟨fun e f => Int.le_total f.2 e.2⟩

theorem notBelow_trans : IsTrans (Token × Int) NotBelow := ⟨fun _ _ _ hef hfg => Int.le_trans hfg hef⟩

/-- `enqueue` is one insertion of an insertion sort by priority. -/
theorem enqueue_eq_orderedInsert (t : Token) (p : Int) (q : List (Token × Int)) :
    enqueue t p q = q.orderedInsert NotBelow (t, p) := by
  induction q with
  | nil => rfl
  | cons e rest ih => rw [enqueue, List.orderedInsert_cons, ih]

theorem enqueue_priorityOrdered (t : Token) (p : Int) {q : List (Token × Int)} (h : priorityOrdered q) :
    priorityOrdered (enqueue t p q) := by
  have := notBelow_total
  have := notBelow_trans
  rw [enqueue_eq_orderedInsert]
  exact List.Pairwise.orderedInsert _ _ h

/-- The new entry stands right after the leading entries of greater priority. -/
theorem enqueue_eq_takeWhile_dropWhile (t : Token) (p : Int) (q : List (Token × Int)) :
    enqueue t p q = q.takeWhile (fun e => p < e.2) ++ (t, p) :: q.dropWhile (fun e => p < e.2) := by
  simp only [enqueue_eq_orderedInsert, List.orderedInsert_eq_take_drop, Int.not_le]

/-- Settles O44: the entries before it have greater priorities, and the one after it has not. -/
theorem enqueueInsertsBeforeTheFirstNotGreater : Obligations.EnqueueInsertsBeforeTheFirstNotGreater := by
  refine fun t p q => ⟨⟨_, _, List.takeWhile_append_dropWhile.symm, enqueue_eq_takeWhile_dropWhile t p q,
    fun e he => ?_, fun e he => ?_⟩, enqueue_priorityOrdered t p⟩
  · simpa using List.mem_takeWhile_imp he
  · simpa [he] using List.head?_dropWhile_not (fun e => decide (p < e.2)) q

/-- The queue after a sequence of accepted tokens: each is inserted in turn, the last one last. -/
theorem queue_foldl_acceptInterrupt (l : List (Token × Int)) (s : State) :
    (l.foldl (fun u e => acceptInterrupt e.1 e.2 u) s).queue = l.reverse.foldr (List.orderedInsert NotBelow) s.queue := by
  induction l generalizing s with
  | nil => rfl
  | cons e rest ih => simp [ih, enqueue_eq_orderedInsert]

/-- The insertion sort by priority is stable: entries of one priority stay in their order. -/
theorem filter_insertionSort (l : List (Token × Int)) (p : Int) :
    (l.insertionSort NotBelow).filter (fun e => e.2 == p) = l.filter (fun e => e.2 == p) := by
  have hties : (l.filter (fun e => e.2 == p)).Pairwise NotBelow :=
    List.pairwise_of_forall_mem_list fun e he f hf => by simp_all [NotBelow]
  have hsub := (List.sublist_insertionSort hties List.filter_sublist).filter (fun e => e.2 == p)
  simp only [List.filter_filter, Bool.and_self] at hsub
  exact (hsub.eq_of_length ((List.perm_insertionSort NotBelow l).filter _).length_eq.symm).symm

/-- Settles O45: the queue is the stable sort of the accepted tokens, the most recent first. -/
theorem queueIsPriorityOrderTiesMostRecentFirst : Obligations.QueueIsPriorityOrderTiesMostRecentFirst := by
  intro l s hs
  have := notBelow_total
  have := notBelow_trans
  refine ⟨l.reverse.insertionSort NotBelow, ?_, List.pairwise_insertionSort NotBelow _,
    (List.perm_insertionSort NotBelow _).trans l.reverse_perm, fun p => ?_⟩
  · rw [queue_foldl_acceptInterrupt, hs]
    rfl
  · rw [filter_insertionSort, List.filter_reverse]

/-! ### acceptInterrupt, supplyInterrupt and addDevice (60_exceptions.md R247 to R252) -/

theorem supplyInterrupt_of_head {s : State} {e : Token × Int} {rest : List (Token × Int)} (hq : s.queue = e :: rest) :
    supplyInterrupt s = some (e, { s with queue := rest, pending := if rest = [] then false else s.pending }) := by
  simp [supplyInterrupt, hq, dequeue]

theorem supplyInterrupt_of_empty {s : State} (hq : s.queue = []) : supplyInterrupt s = none := by
  rw [supplyInterrupt, hq, dequeue]

/-- Settles O46: accepting is one insertion, supplying takes the head. -/
theorem acceptAndSupplyTouchOnlyTheQueue : Obligations.AcceptAndSupplyTouchOnlyTheQueue :=
  ⟨fun _ _ _ => rfl, fun _ _ _ hq => supplyInterrupt_of_head hq⟩

theorem supplyInterrupt_pendingOk {s s' : State} {e : Token × Int} (hs : s.PendingOk)
    (h : supplyInterrupt s = some (e, s')) : s'.PendingOk := by
  cases hq : s.queue with
  | nil =>
    rw [supplyInterrupt_of_empty hq] at h
    cases h
  | cons f rest =>
    have hpend : s.pending = true := hs.2 (by simp [hq])
    rw [supplyInterrupt_of_head hq] at h
    cases h
    simp [State.PendingOk, hpend]

theorem addDevice_of_room {capacity : Nat} {s : State} (d : Device) (h : s.devices.length < capacity) :
    addDevice capacity d s = ({ s with devices := s.devices ++ [d] }, none) := if_pos h

theorem addDevice_of_full {capacity : Nat} {s : State} (d : Device) (h : capacity ≤ s.devices.length) :
    addDevice capacity d s = (s, some (.deviceCapacity d)) := if_neg (by omega)

/-- Settles O48, by whether there is room. -/
theorem addDeviceUpToCapacity : Obligations.AddDeviceUpToCapacity :=
  fun _ d _ => ⟨addDevice_of_room d, addDevice_of_full d⟩

/-! ### What the calls of the host keep (60_exceptions.md R245, R249, R252, R264) -/

/-- Everything a call of the host can do: accept a token, register a device while there is room, stop a running machine, or
nothing. -/
theorem hostAct_cases (act : HostAction) (s : State) :
    (∃ t p, hostAct act s = acceptInterrupt t p s) ∨
      (∃ d, s.devices.length < Config.deviceCapacity ∧ hostAct act s = { s with devices := s.devices ++ [d] }) ∨
      (s.status = .running ∧ hostAct act s = { s with status := .stopped }) ∨ hostAct act s = s := by
  cases act with
  | acceptInterrupt t p => exact .inl ⟨t, p, rfl⟩
  | keypress t => exact .inl ⟨t, Config.keyPriority, rfl⟩
  | addDevice d =>
    rcases Nat.lt_or_ge s.devices.length Config.deviceCapacity with hroom | hfull
    · exact .inr (.inl ⟨d, hroom, by rw [hostAct, addDevice_of_room d hroom]⟩)
    · exact .inr (.inr (.inr (by rw [hostAct, addDevice_of_full d hfull])))
  | stop =>
    by_cases hrun : s.status = .running
    · exact .inr (.inr (.inl ⟨hrun, stopRequest_running hrun⟩))
    · exact .inr (.inr (.inr (stopRequest_ended hrun)))

/-- A call of the host keeps `pending` in step with the queue (R252). -/
theorem hostAct_pendingOk (act : HostAction) {s : State} (hs : s.PendingOk) : (hostAct act s).PendingOk := by
  rcases hostAct_cases act s with ⟨t, p, h⟩ | ⟨d, -, h⟩ | ⟨-, h⟩ | h <;> rw [h]
  · exact acceptInterrupt_pendingOk t p s
  all_goals exact hs

/-- Settles O47: the host's calls one by one, and the head taken from the queue. -/
theorem pendingTracksTheQueue : Obligations.PendingTracksTheQueue :=
  ⟨(reset_withMem_inv Memory.wf_nil).pending, fun _ act hs => hostAct_pendingOk act hs,
    fun _ _ _ hs h => supplyInterrupt_pendingOk hs h⟩

/-- A call of the host keeps the queue in priority order (R245, R246). -/
theorem hostAct_priorityOrdered (act : HostAction) {s : State} (hs : priorityOrdered s.queue) :
    priorityOrdered (hostAct act s).queue := by
  rcases hostAct_cases act s with ⟨t, p, h⟩ | ⟨d, -, h⟩ | ⟨-, h⟩ | h <;> rw [h]
  · exact enqueue_priorityOrdered t p hs
  all_goals exact hs

/-- A call of the host keeps the registry within its capacity (R249). -/
theorem hostAct_devices_length_le (act : HostAction) {s : State} (hs : s.devices.length ≤ Config.deviceCapacity) :
    (hostAct act s).devices.length ≤ Config.deviceCapacity := by
  rcases hostAct_cases act s with ⟨t, p, h⟩ | ⟨d, hroom, h⟩ | ⟨-, h⟩ | h <;> rw [h]
  case inr.inl => simpa using hroom
  all_goals exact hs

/-- A call of the host keeps the fault reason with a faulted run: a running machine that is stopped has none (R264). -/
theorem hostAct_faultOk (act : HostAction) {s : State} (hs : s.FaultOk) : (hostAct act s).FaultOk := by
  rcases hostAct_cases act s with ⟨t, p, h⟩ | ⟨d, -, h⟩ | ⟨hrun, h⟩ | h <;> rw [h]
  case inr.inr.inl => exact ⟨by simpa [hrun] using hs.present, hs.reason⟩
  all_goals exact ⟨hs.present, hs.reason⟩

/-- A call of the host keeps the invariant. -/
theorem hostAct_inv (act : HostAction) {s : State} (hs : s.Inv) : (hostAct act s).Inv := by
  have hpipe := hs.pipeline
  have hpend := hostAct_pendingOk act hs.pending
  have hqueue := hostAct_priorityOrdered act hs.queue
  have hfault := hostAct_faultOk act hs.fault
  have hdev := hostAct_devices_length_le act hs.devices
  rw [(hostAct_frame act s).1] at hpend hqueue hfault hdev ⊢
  exact ⟨hs.mem, ⟨hpipe.firstPass, hpipe.phase2, hpipe.writePending, hpipe.highPending, hpipe.lowPending⟩, hpend, hqueue,
    hfault, hs.out, hdev⟩

/-- Settles O59, by induction on the calls. -/
theorem hostKeepsTheInvariant : Obligations.HostKeepsTheInvariant := by
  intro acts
  induction acts with
  | nil => exact fun _ hs => hs
  | cons act rest ih => exact fun _ hs => ih _ (hostAct_inv act hs)

end Sys2Proof.Proofs.ExceptionsFamily
end
